-- ==== Sys2Proof/Word.lean ====
section
/-! DEFINITION. The word types of GPIO-BB (00_scope.md R15): bits, register bytes, command and response words. -/

namespace Sys2Proof

/-- A `bit`, 0 or 1 (R15). -/
abbrev Bit := BitVec 1

/-- A `u8`: the value of a register, or a payload byte (R15). -/
abbrev Byte := BitVec 8

/-- The 16-bit command word `cmd` (R70). -/
abbrev CmdWord := BitVec 16

/-- The 20-bit response word `resp` (R72). -/
abbrev RespWord := BitVec 20

end Sys2Proof
end

