-- ==== Sys2Proof/Syntax.lean ====
section
/-! DEFINITION. The eleven commands of GPIO-BB (30_encoding.md R73), one constructor per row of spec/opcode_table.json,
and the three pseudo-commands (R80). -/

namespace Sys2Proof

/-- A command. `pin` and `val` are the natural numbers the fields PIN and VAL stand for (R77: "a natural number 0 to 15",
"a natural number 0 to 255"); `WellFormed` says which of them an encoding can carry. -/
inductive Instr where
  /-- `RDBIT.DATA p` (R102). -/
  | rdbitData (pin : Nat)
  /-- `RDBIT.DIR p` (R103). -/
  | rdbitDir (pin : Nat)
  /-- `WRBIT.DATA p, v` (R104). -/
  | wrbitData (pin val : Nat)
  /-- `WRBIT.DIR p, v` (R105). -/
  | wrbitDir (pin val : Nat)
  /-- `CFGDIR p, v` (R124). -/
  | cfgdir (pin val : Nat)
  /-- `WRPIN p, v` (R125). -/
  | wrpin (pin val : Nat)
  /-- `RDPIN p` (R126). -/
  | rdpin (pin : Nat)
  /-- `TGLPIN p` (R127). -/
  | tglpin (pin : Nat)
  /-- `ENCB b`, with `b` the payload byte, "a full 8-bit value by construction" (R140). -/
  | encb (b : Byte)
  /-- `SEND` (R150). -/
  | send
  /-- `RENDER` (R190). -/
  | render
deriving DecidableEq, Repr

/-- The three pseudo-commands of R80, each an abbreviation for a list of commands. -/
inductive Pseudo where
  /-- `SENDBYTES b0, b1, …`: the bytes encoded in order, then SEND. -/
  | sendbytes (bytes : List Byte)
  /-- `OUTPUT p`: `CFGDIR p, 1`. -/
  | output (pin : Nat)
  /-- `INPUT p`: `CFGDIR p, 0`. -/
  | input (pin : Nat)
deriving DecidableEq, Repr

end Sys2Proof
end

