-- ==== Sys2Proof/WellFormed.lean ====
section
/-! DEFINITION. Which commands an encoding can carry: "PIN must be 0 to 15 and VAL 0 to 255 to be encodable"
(30_encoding.md R79, R70). -/

namespace Sys2Proof

/-- A pin number the 4-bit PIN field can carry (R70, R79); 8 to 15 are encodable and out of range (R77). -/
def pinEncodable (pin : Nat) : Bool := pin < 16

/-- A value the 8-bit VAL field can carry (R70, R79). -/
def valEncodable (val : Nat) : Bool := val < 256

/-- A command that some command word carries (R79). -/
def Instr.wellFormed : Instr → Bool
  | .rdbitData pin => pinEncodable pin
  | .rdbitDir pin => pinEncodable pin
  | .wrbitData pin val => pinEncodable pin && valEncodable val
  | .wrbitDir pin val => pinEncodable pin && valEncodable val
  | .cfgdir pin val => pinEncodable pin && valEncodable val
  | .wrpin pin val => pinEncodable pin && valEncodable val
  | .rdpin pin => pinEncodable pin
  | .tglpin pin => pinEncodable pin
  | .encb _ => true
  | .send => true
  | .render => true

end Sys2Proof
end

