-- ==== Sys2Proof/Decode.lean ====
section
/-! DEFINITION. Decoding a command word (30_encoding.md R70, R71, R73, R75, R77), the opcode table as rows of mask and
match, and the encoder (R73). A reserved word is rejected under the name of R75's reason; the machine then answers
IllegalCommand (Machine/Step.lean). -/

namespace Sys2Proof

/-- Why a word is reserved: the four kinds R75 lists. -/
inductive Reserved where
  /-- OP is 0x0, 0xC, 0xD, 0xE or 0xF. -/
  | opcodeUnassigned
  /-- Format P with VAL not 0. -/
  | valNotZero
  /-- Format V with PIN not 0. -/
  | pinNotZero
  /-- Format Z with `cmd[11:0]` not 0. -/
  | operandsNotZero
deriving DecidableEq, Repr

/-- `OP = cmd[15:12]` (R70). -/
def opField (w : CmdWord) : Nat := (w.extractLsb' 12 4).toNat

/-- `PIN = cmd[11:8]`, as the natural number `zext(cmd[11:8])` (R70, R77). -/
def pinField (w : CmdWord) : Nat := (w.extractLsb' 8 4).toNat

/-- `VAL = cmd[7:0]` (R70). -/
def valField (w : CmdWord) : Byte := w.extractLsb' 0 8

/-- Format P: VAL is unused and must be zero (R71). -/
def formatP (w : CmdWord) (mk : Nat → Instr) : Except Reserved Instr :=
  if valField w = 0#8 then .ok (mk (pinField w)) else .error .valNotZero

/-- Format PV: both operand fields are used (R71). -/
def formatPV (w : CmdWord) (mk : Nat → Nat → Instr) : Except Reserved Instr :=
  .ok (mk (pinField w) (valField w).toNat)

/-- Format V: PIN is unused and must be zero (R71). -/
def formatV (w : CmdWord) (mk : Byte → Instr) : Except Reserved Instr :=
  if pinField w = 0 then .ok (mk (valField w)) else .error .pinNotZero

/-- Format Z: PIN and VAL are unused and must be zero (R71). -/
def formatZ (w : CmdWord) (i : Instr) : Except Reserved Instr :=
  if pinField w = 0 ∧ valField w = 0#8 then .ok i else .error .operandsNotZero

/-- The command a word selects, or why it is reserved: total on the 65536 words (R73, R74, R75). -/
def decode (w : CmdWord) : Except Reserved Instr :=
  match opField w with
  | 0x1 => formatP w .rdbitData
  | 0x2 => formatP w .rdbitDir
  | 0x3 => formatPV w .wrbitData
  | 0x4 => formatPV w .wrbitDir
  | 0x5 => formatPV w .cfgdir
  | 0x6 => formatPV w .wrpin
  | 0x7 => formatP w .rdpin
  | 0x8 => formatP w .tglpin
  | 0x9 => formatV w .encb
  | 0xA => formatZ w .send
  | 0xB => formatZ w .render
  | _ => .error .opcodeUnassigned

/-- The instruction the decoder reads from an instruction whose bits are `w`, numbered as spec/opcode_table.json numbers
them. A command word arrives whole (R52), so its bits are those of the number: bits at and above `nbits` are 0, and a
number that needs more than 16 bits is no command word (log 14). -/
def decodeTableWord (nbits w : Nat) : Option Instr :=
  let v := w % 2 ^ nbits
  if v < 2 ^ 16 then (decode (BitVec.ofNat 16 v)).toOption else none

/-- "The word of a command is `OP * 4096 + PIN * 256 + VAL` with the unused fields zero" (R73). -/
def commandWord (op pin val : Nat) : CmdWord := BitVec.ofNat 16 (op * 4096 + pin * 256 + val)

/-- The word of a well-formed command (R73). -/
def encode : Instr → CmdWord
  | .rdbitData pin => commandWord 0x1 pin 0
  | .rdbitDir pin => commandWord 0x2 pin 0
  | .wrbitData pin val => commandWord 0x3 pin val
  | .wrbitDir pin val => commandWord 0x4 pin val
  | .cfgdir pin val => commandWord 0x5 pin val
  | .wrpin pin val => commandWord 0x6 pin val
  | .rdpin pin => commandWord 0x7 pin 0
  | .tglpin pin => commandWord 0x8 pin 0
  | .encb b => commandWord 0x9 0 b.toNat
  | .send => commandWord 0xA 0 0
  | .render => commandWord 0xB 0 0

/-- The mnemonic of a command (R73, R79). -/
def Instr.mnemonic : Instr → String
  | .rdbitData _ => "RDBIT.DATA"
  | .rdbitDir _ => "RDBIT.DIR"
  | .wrbitData _ _ => "WRBIT.DATA"
  | .wrbitDir _ _ => "WRBIT.DIR"
  | .cfgdir _ _ => "CFGDIR"
  | .wrpin _ _ => "WRPIN"
  | .rdpin _ => "RDPIN"
  | .tglpin _ => "TGLPIN"
  | .encb _ => "ENCB"
  | .send => "SEND"
  | .render => "RENDER"

/-- One row of the opcode map: a word `w` selects the command when `w & mask = pattern` (R71, R73). -/
structure OpcodeRow where
  mnemonic : String
  mask : CmdWord
  pattern : CmdWord
deriving DecidableEq, Repr

/-- The opcode map of R73, written out in its order. -/
def opcodeTable : List OpcodeRow :=
  [⟨"RDBIT.DATA", 0xF0FF#16, 0x1000#16⟩,
   ⟨"RDBIT.DIR", 0xF0FF#16, 0x2000#16⟩,
   ⟨"WRBIT.DATA", 0xF000#16, 0x3000#16⟩,
   ⟨"WRBIT.DIR", 0xF000#16, 0x4000#16⟩,
   ⟨"CFGDIR", 0xF000#16, 0x5000#16⟩,
   ⟨"WRPIN", 0xF000#16, 0x6000#16⟩,
   ⟨"RDPIN", 0xF0FF#16, 0x7000#16⟩,
   ⟨"TGLPIN", 0xF0FF#16, 0x8000#16⟩,
   ⟨"ENCB", 0xFF00#16, 0x9000#16⟩,
   ⟨"SEND", 0xFFFF#16, 0xA000#16⟩,
   ⟨"RENDER", 0xFFFF#16, 0xB000#16⟩]

end Sys2Proof
end

