-- ==== Sys2Proof/Config.lean ====
section
/-! DEFINITION. The parameters P3 to P9 of GPIO-BB (00_scope.md R8 to R14), and the block's own values of them,
which the spec leaves OPEN: an opaque constant, so that no proof can lean on a value (log 1). -/

namespace Sys2Proof

/-- The initial value of a register: "all-zero or all-one" and nothing else (R12, R233). -/
inductive InitValue where
  | allZero
  | allOne
deriving DecidableEq, Repr, Inhabited

/-- The byte an initial value stands for: 0x00 or 0xFF (R12). -/
def InitValue.byte : InitValue → Byte
  | .allZero => 0x00#8
  | .allOne => 0xFF#8

/-- The implementation parameters, fixed for the life of the block and never state (00_scope.md section 4).
The types admit exactly the legal values of R233. -/
structure Config where
  /-- P3, `CLOCK_PIN`, 0 to 255 (R8). -/
  clockPin : Byte
  /-- P4, `DATA_PIN`, 0 to 255 (R9). -/
  dataPin : Byte
  /-- P5, `TICK_MS` less one: `TICK_MS` is a positive integer (R10). -/
  tickMsLessOne : Nat
  /-- P6, `SETTLE_TICKS`, a natural number, 0 allowed (R11). -/
  settleTicks : Nat
  /-- P7, `DATA_INIT` (R12). -/
  dataInit : InitValue
  /-- P8, `DIR_INIT` (R12). -/
  dirInit : InitValue
  /-- P9, `BUF_CAP` in whole bytes, a multiple of 8 bits; `none` is unbounded, the default (R13). -/
  bufCapBytes : Option Nat
deriving DecidableEq, Repr, Inhabited

/-- `TICK_MS` in milliseconds (R10); no rule of the machine depends on it (R243). -/
def Config.tickMs (c : Config) : Nat := c.tickMsLessOne + 1

/-- `BUF_CAP` in bits; `none` is unbounded (R13). -/
def Config.bufCap (c : Config) : Option Nat := c.bufCapBytes.map (8 * ·)

/-- The parameters of the block itself. The spec names no value and no default for them ("OPEN: the model takes … as
an argument", R8 to R13), so this constant has no body: whatever is proved of it holds for every choice (log 1). -/
opaque Config.block : Config

end Sys2Proof
end

