-- ==== Sys2Proof/Machine/State.lean ====
section
/-! DEFINITION. The state of GPIO-BB as plain data (10_state.md R20 to R38), the reasons a step can stop, and the state
after reset (R35, R230). -/

namespace Sys2Proof.Machine

/-- The two registers an access can name, chosen by the opcode (R28, R57). -/
inductive Reg where
  /-- The data register, the source's "PORTB" (R20). -/
  | data
  /-- The direction register, the source's "DDRDB" (R21). -/
  | dir
deriving DecidableEq, Repr

/-- The status of a response (R72). Codes 7 to 15 are never produced, so no constructor stands for them (U13). -/
inductive Status where
  | ok
  | invalidPin
  | invalidValue
  | pinNotConfigured
  | internalConsistencyFault
  | illegalCommand
  | bufferFull
deriving DecidableEq, Repr

/-- The 13 sequencer positions (R26). -/
inductive SeqPos where
  | idle
  | iReport
  | iSettle
  | iCfgData
  | iCfgClock
  | aToggle
  | aTick
  | tData
  | tStrobe
  | tReport
  | tTick
  | done
  | aborted
deriving DecidableEq, Repr

/-- The protocol states of the source, with this spec's Aborted (R26, R151). -/
inductive Fsm where
  | idle
  | initializing
  | acknowledging
  | transmitting
  | done
  | aborted
deriving DecidableEq, Repr

/-- The agents that take steps, and the absence of one (R18, R27). -/
inductive Agent where
  /-- The host, which may issue one command. -/
  | host
  /-- The sequencer, which runs the micro-step of its position. -/
  | sequencer
  /-- No agent has a step (R208). -/
  | nobody
deriving DecidableEq, Repr

/-- The observable events of the trace (R32). -/
inductive Event where
  /-- `EvWrite(s, p, v)`: a completed `write_bit`, also one that leaves the byte unchanged. -/
  | write (r : Reg) (p : Fin 8) (v : Bit)
  /-- `EvReport(d, r)`: a snapshot of the two registers. -/
  | report (d r : Byte)
  /-- `EvTick`: a completed tick wait. -/
  | tick
deriving DecidableEq, Repr

/-- What the outside presents to the block, in order (log 2, log 3). -/
inductive HostInput where
  /-- The host issues this command word as soon as the block is ready (R81). -/
  | command (w : CmdWord)
  /-- The reset input is asserted once the machine has taken `n` further steps (R230: "Reset may come at any time"). -/
  | resetAfter (n : Nat)
deriving DecidableEq, Repr

/-- The state of the machine: the spec's tuple (10_state.md), and the two fields of the model's own, `resp` and `host`. -/
structure State where
  /-- DATA (R20). -/
  data : Byte
  /-- DIR (R21); 1 is output. -/
  dir : Byte
  /-- BUF, the transmission buffer, index 0 first (R25). -/
  buf : List Bit
  /-- SEQ, the sequencer position (R26). -/
  seq : SeqPos
  /-- IDX, the index into BUF of the bit written next (R29). -/
  idx : Nat
  /-- SETTLE_CNT, the settle ticks still to wait (R30). -/
  settleCnt : Nat
  /-- ABORT_CODE, the status that ended an aborted session, `ok` otherwise (R30). -/
  abortCode : Status
  /-- TRACE, the events since reset, oldest first (R32). -/
  trace : List Event
  /-- The response word the block shows (R72, R81); `none` from reset and from a SEND until there is one (log 4). -/
  resp : Option RespWord
  /-- What the outside will still present, first input first (log 2). -/
  host : List HostInput
deriving DecidableEq, Repr

/-- The faults: the machine stops. Each is safe: the model stops where the spec gives no step. -/
inductive Fault where
  /-- Raised by `step` at `SEQ = ABORTED` with no reset to come: "no agent has a step" (R208, U15). Safe. -/
  | aborted
  /-- Raised by a meaning when the block is not ready: the host has no step there, and the interface cannot present the
  command (R27, U14). `step` never gives a command to `exec` in such a state. Safe. -/
  | notReady
  /-- Raised by the sequencer when it is asked for a step at IDLE, DONE or ABORTED, where it has none (R27).
  `step` never asks. Safe. -/
  | noMicroStep
  /-- Raised by `T_DATA` when IDX is outside BUF, so that `BUF[IDX]` names no bit; no run reaches it (R29, R159). Safe. -/
  | noBitAtIndex
deriving DecidableEq, Repr

/-- The refusals. -/
inductive Refusal where
  /-- Raised by `exec` for a command that has no meaning yet, by its mnemonic. Safe. No arm of this model raises it. -/
  | notModelled (mnemonic : String)
deriving DecidableEq, Repr

/-- The state after reset for given parameters (R35, R230): nothing is left unspecified. -/
def State.resetOf (c : Config) : State where
  data := c.dataInit.byte
  dir := c.dirInit.byte
  buf := []
  seq := .idle
  idx := 0
  settleCnt := 0
  abortCode := .ok
  trace := []
  resp := none
  host := []

/-- The block right after reset (R35), with nothing presented at its interface. -/
def State.reset : State := State.resetOf Config.block

end Sys2Proof.Machine
end

