-- ==== Sys2Proof/Machine/Flags.lean ====
section
/-! DEFINITION. The hardware has no flag register and no condition code (10_state.md R33): the outcome of a command is its
response status. Here stand the status codes and the response word (30_encoding.md R72). -/

namespace Sys2Proof.Machine

/-- The 4-bit code of a status (R72). -/
def Status.code : Status → BitVec 4
  | .ok => 0#4
  | .invalidPin => 1#4
  | .invalidValue => 2#4
  | .pinNotConfigured => 3#4
  | .internalConsistencyFault => 4#4
  | .illegalCommand => 5#4
  | .bufferFull => 6#4

/-- `resp[19:16] = status`, `resp[15:0] = data` (R72). -/
def respWord (st : Status) (d : BitVec 16) : RespWord := st.code ++ d

end Sys2Proof.Machine
end

