-- ==== Sys2Proof/Machine/Operands.lean ====
section
/-! DEFINITION. Operands (30_encoding.md R77; 20_memory.md R53): how a field becomes the argument of a procedure, and the
two range checks every register access makes. -/

namespace Sys2Proof.Machine

/-- The `pin` argument of a procedure: the field's number, "passed unchanged", never masked (R77). -/
def pinArg (pin : Nat) : Int := pin

/-- The `value` argument of a procedure: the field's number (R77). -/
def valArg (val : Nat) : Int := val

/-- The `pin` argument a configuration constant gives: an unsigned 8-bit number (R8, R9). -/
def roleArg (pin : Byte) : Int := pin.toNat

/-- The range check of a pin index: a pin in [0,7], or nothing (R53, R100). -/
def pinIndex? (pin : Int) : Option (Fin 8) :=
  if h : 0 ≤ pin ∧ pin ≤ 7 then some ⟨pin.toNat, by omega⟩ else none

/-- The range check of a value: a bit, or nothing (R101). -/
def bitValue? (value : Int) : Option Bit :=
  if value = 0 then some 0#1 else if value = 1 then some 1#1 else none

end Sys2Proof.Machine
end

