-- ==== Sys2Proof/Machine/Ops.lean ====
section
/-! DEFINITION. The named operations over the state (00_scope.md R17): register access, `emit`, `respond`, the two
primitives (40_bit_accessor.md R100, R101), the four procedures of the Port Controller (41_port_controller.md R120 to
R123), and what an error does: to a command (R206) and to a session (R207), each once. -/

namespace Sys2Proof.Machine

/-- `x[s]`: the whole byte of a register (R17). -/
def State.reg (s : State) : Reg → Byte
  | .data => s.data
  | .dir => s.dir

/-- `x[s] <- v` (R17). -/
def State.setReg (s : State) (r : Reg) (v : Byte) : State :=
  match r with
  | .data => { s with data := v }
  | .dir => { s with dir := v }

/-- `emit e`: append an event to the trace (R17). -/
def State.emit (s : State) (e : Event) : State := { s with trace := s.trace ++ [e] }

/-- A report: a snapshot of the two registers (R32). -/
def State.report (s : State) : State := s.emit (.report s.data s.dir)

/-- A completed tick wait (R32, R214); it never fails. -/
def State.tick (s : State) : State := s.emit .tick

/-- `seq <- p` (R17). -/
def State.goto (s : State) (p : SeqPos) : State := { s with seq := p }

/-- `respond(st, d)` (R17, R72). -/
def State.respond (s : State) (st : Status) (d : BitVec 16) : State := { s with resp := some (respWord st d) }

/-- Which agent may step at a position: the host at IDLE and DONE, the sequencer at the ten running positions, nobody at
ABORTED (R27). -/
def SeqPos.agent : SeqPos → Agent
  | .idle => .host
  | .iReport => .sequencer
  | .iSettle => .sequencer
  | .iCfgData => .sequencer
  | .iCfgClock => .sequencer
  | .aToggle => .sequencer
  | .aTick => .sequencer
  | .tData => .sequencer
  | .tStrobe => .sequencer
  | .tReport => .sequencer
  | .tTick => .sequencer
  | .done => .host
  | .aborted => .nobody

/-- `ready`: 1 exactly when SEQ is IDLE or DONE (R27, R81). -/
def State.ready (s : State) : Bool :=
  match s.seq.agent with
  | .host => true
  | .sequencer => false
  | .nobody => false

/-- `pad_out[7:0] = x[DATA]` (R36). -/
def State.padOut (s : State) : Byte := s.data

/-- `pad_oe[7:0] = x[DIR]`, 1 where the pad drives (R36). -/
def State.padOe (s : State) : Byte := s.dir

/-- `mask = 1 << pin`, the byte with the one bit of weight 2^p (R50, R101). -/
def pinMask (p : Fin 8) : Byte := 1#8 <<< p.val

/-- The store of `write_bit` once its checks have passed: read, modify and write of one bit, in one step, and the event
(R101, R55). -/
def State.putBit (s : State) (r : Reg) (p : Fin 8) (v : Bit) : State :=
  (s.setReg r (if v = 0#1 then s.reg r &&& ~~~pinMask p else s.reg r ||| pinMask p)).emit (.write r p v)

/-- `read_bit(s, pin)`: `(x[s] >> pin) & 1`, or InvalidPin (R100). -/
def readBit (s : State) (r : Reg) (pin : Int) : Except Status Byte :=
  match pinIndex? pin with
  | none => .error .invalidPin
  | some p => .ok ((s.reg r >>> p.val) &&& 1#8)

/-- `write_bit(s, pin, value)`: the pin is checked first, the value second; a check that fails writes nothing (R101). -/
def writeBit (s : State) (r : Reg) (pin value : Int) : Except Status State :=
  match pinIndex? pin with
  | none => .error .invalidPin
  | some p =>
    match bitValue? value with
    | none => .error .invalidValue
    | some v => .ok (s.putBit r p v)

/-- `configure_direction(pin, is_output)` (R120). -/
def configureDirection (s : State) (pin isOutput : Int) : Except Status State :=
  writeBit s .dir pin isOutput

/-- `write_pin(pin, value)`: guarded by the present value of the DIR bit (R121). -/
def writePin (s : State) (pin value : Int) : Except Status State :=
  match readBit s .dir pin with
  | .error e => .error e
  | .ok d => if d = 0#8 then .error .pinNotConfigured else writeBit s .data pin value

/-- `read_pin(pin)`: the DATA bit, whatever the direction (R122). -/
def readPin (s : State) (pin : Int) : Except Status Byte := readBit s .data pin

/-- `toggle_pin(pin)`: read, then write the complement through `write_pin`; the arm of InternalConsistencyFault is kept
as the source keeps it, and is dead (R123, R129). -/
def togglePin (s : State) (pin : Int) : Except Status State :=
  match readPin s pin with
  | .error e => .error e
  | .ok c =>
    if c ≠ 0#8 ∧ c ≠ 1#8 then .error .internalConsistencyFault
    else writePin s pin (1 - (c.toNat : Int))

/-- A command is a step of the host, which has one only while the block is ready (R27, U14). -/
def whenReady (s next : State) : Host.Outcome State Fault Refusal :=
  if s.ready then .next next else .fault .notReady

/-- The end of a command that writes: `respond(Ok, 0)`, or, when a procedure raises E, `respond(E, 0)` with the state as
it was before the command (R206). -/
def completeWrite (s : State) (r : Except Status State) : State :=
  match r with
  | .ok t => t.respond .ok 0#16
  | .error e => s.respond e 0#16

/-- The end of a command that reads a bit: `respond(Ok, zext_16(b))`, or `respond(E, 0)` (R102, R206). -/
def completeRead (s : State) (r : Except Status Byte) : State :=
  match r with
  | .ok b => s.respond .ok (b.setWidth 16)
  | .error e => s.respond e 0#16

/-- `abort(E)`: an error inside a session. ABORT_CODE is latched, SEQ is ABORTED, the response of SEND is the error, and
nothing is undone (R207). -/
def State.abort (s : State) (e : Status) : State :=
  { s.respond e 0#16 with abortCode := e, seq := .aborted }

/-- A procedure called by a micro-step at state `s`: go on with its result, or abort with the state as it was before the
failing micro-step (R164, R207). -/
def orAbort (s : State) (r : Except Status State) (go : State → State) : State :=
  match r with
  | .ok t => go t
  | .error e => s.abort e

end Sys2Proof.Machine
end

