-- ==== Sys2Proof/Machine/BitAccessor.lean ====
section
/-! DEFINITION. The Register and Bit Accessor commands (40_bit_accessor.md R102 to R105): the two primitives on each of the
two registers, with no direction guard (20_memory.md R58). -/

namespace Sys2Proof.Machine

/-- `RDBIT.DATA p` (R102). -/
def execRdbitData (pin : Nat) (s : State) : Host.Outcome State Fault Refusal :=
  whenReady s (completeRead s (readBit s .data (pinArg pin)))

/-- `RDBIT.DIR p` (R103). -/
def execRdbitDir (pin : Nat) (s : State) : Host.Outcome State Fault Refusal :=
  whenReady s (completeRead s (readBit s .dir (pinArg pin)))

/-- `WRBIT.DATA p, v` (R104). -/
def execWrbitData (pin val : Nat) (s : State) : Host.Outcome State Fault Refusal :=
  whenReady s (completeWrite s (writeBit s .data (pinArg pin) (valArg val)))

/-- `WRBIT.DIR p, v` (R105). -/
def execWrbitDir (pin val : Nat) (s : State) : Host.Outcome State Fault Refusal :=
  whenReady s (completeWrite s (writeBit s .dir (pinArg pin) (valArg val)))

end Sys2Proof.Machine
end

