-- ==== Sys2Proof/Machine/BitEncoder.lean ====
section
/-! DEFINITION. The Bit Encoder command (42_bit_encoder.md R140, R141). -/

namespace Sys2Proof.Machine

/-- `v[i]`: bit i of a byte (R16). -/
def byteBit (b : Byte) (i : Nat) : Bit := b.extractLsb' i 1

/-- The 8 bits of a payload byte, most significant bit first (R140). -/
def byteBits (b : Byte) : List Bit :=
  [byteBit b 7, byteBit b 6, byteBit b 5, byteBit b 4, byteBit b 3, byteBit b 2, byteBit b 1, byteBit b 0]

/-- `n > BUF_CAP`, never with BUF_CAP unbounded (R140, R141). -/
def overCap (cap : Option Nat) (n : Nat) : Bool :=
  match cap with
  | none => false
  | some m => m < n

/-- `encode_byte`: append the 8 bits and respond Ok, or respond BufferFull and change nothing (R140, R141). -/
def encodeByte (cap : Option Nat) (b : Byte) (s : State) : State :=
  if overCap cap (s.buf.length + 8) then s.respond .bufferFull 0#16
  else { s with buf := s.buf ++ byteBits b }.respond .ok 0#16

/-- `ENCB b` (R140). -/
def execEncb (b : Byte) (s : State) : Host.Outcome State Fault Refusal :=
  whenReady s (encodeByte Config.block.bufCap b s)

end Sys2Proof.Machine
end

