-- ==== Sys2Proof/Machine/PortController.lean ====
section
/-! DEFINITION. The Port Controller commands (41_port_controller.md R124 to R127). -/

namespace Sys2Proof.Machine

/-- `CFGDIR p, v` (R124). -/
def execCfgdir (pin val : Nat) (s : State) : Host.Outcome State Fault Refusal :=
  whenReady s (completeWrite s (configureDirection s (pinArg pin) (valArg val)))

/-- `WRPIN p, v` (R125). -/
def execWrpin (pin val : Nat) (s : State) : Host.Outcome State Fault Refusal :=
  whenReady s (completeWrite s (writePin s (pinArg pin) (valArg val)))

/-- `RDPIN p` (R126). -/
def execRdpin (pin : Nat) (s : State) : Host.Outcome State Fault Refusal :=
  whenReady s (completeRead s (readPin s (pinArg pin)))

/-- `TGLPIN p` (R127). -/
def execTglpin (pin : Nat) (s : State) : Host.Outcome State Fault Refusal :=
  whenReady s (completeWrite s (togglePin s (pinArg pin)))

end Sys2Proof.Machine
end

