-- ==== Sys2Proof/Machine/SerialTransmitter.lean ====
section
/-! DEFINITION. The Serial Transmitter (43_serial_transmitter.md): SEND (R150), the ten micro-steps (R153 to R162),
`dispatch` (R152), `finish` (R163), and the same session as one loop (R165). -/

namespace Sys2Proof.Machine

/-- `fsm(SEQ)`: the source's protocol state (R26). -/
def SeqPos.fsm : SeqPos → Fsm
  | .idle => .idle
  | .iReport => .initializing
  | .iSettle => .initializing
  | .iCfgData => .initializing
  | .iCfgClock => .initializing
  | .aToggle => .acknowledging
  | .aTick => .acknowledging
  | .tData => .transmitting
  | .tStrobe => .transmitting
  | .tReport => .transmitting
  | .tTick => .transmitting
  | .done => .done
  | .aborted => .aborted

/-- The state SEND leaves: a session started, and no response yet (R150); the port shows no word until there is one (log 4). -/
def State.startSession (s : State) (c : Config) : State :=
  { s with idx := 0, settleCnt := c.settleTicks, abortCode := .ok, seq := .iReport, resp := none }

/-- `SEND` (R150). -/
def execSend (s : State) : Host.Outcome State Fault Refusal :=
  whenReady s (s.startSession Config.block)

/-- `finish`: BUF is discarded, SEQ is DONE, and SEND gets its response (R163). -/
def State.finish (s : State) : State :=
  { s.respond .ok 0#16 with buf := [], idx := 0, seq := .done }

/-- `dispatch(i)`: the next position once bit index i is reached (R152). -/
def State.dispatch (s : State) (i : Nat) : State :=
  let t := { s with idx := i }
  if t.buf.length ≤ i then t.finish
  else if i % 8 = 0 then t.goto .aToggle
  else t.goto .tData

/-- Position `I_REPORT` (R153). -/
def stepIReport (s : State) : State := s.report.goto .iSettle

/-- Position `I_SETTLE` (R154). -/
def stepISettle (s : State) : State :=
  if 0 < s.settleCnt then { s.tick with settleCnt := s.settleCnt - 1 } else s.goto .iCfgData

/-- Position `I_CFG_DATA` (R155). -/
def stepICfgData (c : Config) (s : State) : State :=
  orAbort s (configureDirection s (roleArg c.dataPin) 1) fun t => t.goto .iCfgClock

/-- Position `I_CFG_CLOCK` (R156). -/
def stepICfgClock (c : Config) (s : State) : State :=
  orAbort s (configureDirection s (roleArg c.clockPin) 1) fun t => t.dispatch 0

/-- Position `A_TOGGLE` (R157). -/
def stepAToggle (c : Config) (s : State) : State :=
  orAbort s (togglePin s (roleArg c.clockPin)) fun t => t.goto .aTick

/-- Position `A_TICK` (R158). -/
def stepATick (s : State) : State := s.tick.goto .tData

/-- Position `T_DATA`, with `BUF[IDX]` = b (R159). -/
def stepTData (c : Config) (b : Bit) (s : State) : State :=
  orAbort s (writePin s (roleArg c.dataPin) b.toNat) fun t => t.goto .tStrobe

/-- Position `T_STROBE` (R160). -/
def stepTStrobe (c : Config) (s : State) : State :=
  orAbort s (togglePin s (roleArg c.clockPin)) fun t => t.goto .tReport

/-- Position `T_REPORT` (R161). -/
def stepTReport (s : State) : State := s.report.goto .tTick

/-- Position `T_TICK` (R162). -/
def stepTTick (s : State) : State := s.tick.dispatch (s.idx + 1)

/-- The sequencer's one enabled step at a running position; at IDLE, DONE and ABORTED it has none (R27). -/
def microStep (c : Config) (s : State) : Host.Outcome State Fault Refusal :=
  match s.seq with
  | .idle => .fault .noMicroStep
  | .iReport => .next (stepIReport s)
  | .iSettle => .next (stepISettle s)
  | .iCfgData => .next (stepICfgData c s)
  | .iCfgClock => .next (stepICfgClock c s)
  | .aToggle => .next (stepAToggle c s)
  | .aTick => .next (stepATick s)
  | .tData =>
    match s.buf[s.idx]? with
    | none => .fault .noBitAtIndex
    | some b => .next (stepTData c b s)
  | .tStrobe => .next (stepTStrobe c s)
  | .tReport => .next (stepTReport s)
  | .tTick => .next (stepTTick s)
  | .done => .fault .noMicroStep
  | .aborted => .fault .noMicroStep

/-- `k` micro-steps, stopping at the first fault. -/
def microSteps (c : Config) : Nat → State → Host.Outcome State Fault Refusal
  | 0, s => .next s
  | k + 1, s =>
    match microStep c s with
    | .next t => microSteps c k t
    | .fault f => .fault f
    | .refused r => .refused r

/-- Inside the loop of R165: a procedure's result, or the aborted state ("on any raise: … nothing undone"). -/
def attempt (s : State) (r : Except Status State) : Except State State :=
  match r with
  | .ok t => .ok t
  | .error e => .error (s.abort e)

/-- `repeat n times: emit EvTick`, which uses SETTLE_CNT up (R165, R154). -/
def settleWait (s : State) (n : Nat) : State :=
  { s with trace := s.trace ++ List.replicate n Event.tick, settleCnt := 0 }

/-- The acknowledgment window before bit index i: toggle CLOCK and wait one tick, at the start of a byte only (R165). -/
def ackWindow (c : Config) (i : Nat) (s : State) : Except State State :=
  if i % 8 = 0 then (attempt s (togglePin s (roleArg c.clockPin))).map State.tick else .ok s

/-- The body of the loop of R165 for bit index i with value b. -/
def sendOneBit (c : Config) (i : Nat) (b : Bit) (s : State) : Except State State := do
  let s ← ackWindow c i { s with idx := i }
  let s ← attempt s (writePin s (roleArg c.dataPin) b.toNat)
  let s ← attempt s (togglePin s (roleArg c.clockPin))
  pure s.report.tick

/-- The loop of R165 over the bits from index i on. -/
def sendBits (c : Config) : Nat → List Bit → State → Except State State
  | _, [], s => .ok s
  | i, b :: bs, s => do
    let s ← sendOneBit c i b s
    sendBits c (i + 1) bs s

/-- The body of `send()` in R165, up to its end or its first raise. -/
def sendBody (c : Config) (s : State) : Except State State := do
  let s := settleWait s.report c.settleTicks
  let s ← attempt s (configureDirection s (roleArg c.dataPin) 1)
  let s ← attempt s (configureDirection s (roleArg c.clockPin) 1)
  sendBits c 0 s.buf s

/-- One whole session as one big step, from the state in which the host issues SEND (R165). -/
def session (c : Config) (s : State) : State :=
  match sendBody c (s.startSession c) with
  | .ok t => t.finish
  | .error t => t

/-- The number of acknowledgment windows of n bits: `ceil(n / 8)` (R166). -/
def ackCount (n : Nat) : Nat := (n + 7) / 8

/-- The ticks a session of n bits waits: `SETTLE_TICKS + a + n` (R166, R243). -/
def sessionTicks (c : Config) (n : Nat) : Nat := c.settleTicks + ackCount n + n

/-- The least duration of a session of n bits in milliseconds, a lower bound (R243). -/
def sessionMinMillis (c : Config) (n : Nat) : Nat := sessionTicks c n * c.tickMs

end Sys2Proof.Machine
end

