-- ==== Sys2Proof/Machine/StateReporter.lean ====
section
/-! DEFINITION. The State Reporter (44_state_reporter.md): RENDER (R190) and the rendered form of a snapshot (R191). -/

namespace Sys2Proof.Machine

/-- `RENDER`: `respond(Ok, {DATA, DIR})`, and nothing else (R190). -/
def execRender (s : State) : Host.Outcome State Fault Refusal :=
  whenReady s (s.respond .ok (s.data ++ s.dir))

/-- The digit of bit i of a byte (R191). -/
def bitDigit (v : Byte) (i : Nat) : Char := if v.getLsbD i then '1' else '0'

/-- The string of a byte: exactly 8 characters, character k the digit of `v[7-k]` (R191). -/
def bitString (v : Byte) : List Char :=
  [bitDigit v 7, bitDigit v 6, bitDigit v 5, bitDigit v 4, bitDigit v 3, bitDigit v 2, bitDigit v 1, bitDigit v 0]

/-- A snapshot as text, one string per line, with the labels of R191 (D21; log 12). -/
def renderLines (d r : Byte) : List (List Char) :=
  ["PORTB ".toList ++ bitString d, "DDRDB ".toList ++ bitString r]

end Sys2Proof.Machine
end

