-- ==== Sys2Proof/Machine/Dispatch.lean ====
section
/-! DEFINITION. One command at a state: the meaning of each of the eleven rows of spec/opcode_table.json. -/

namespace Sys2Proof.Machine

def exec (i : Instr) (s : State) : Host.Outcome State Fault Refusal :=
  match i with
  | .rdbitData pin => Sys2Proof.Machine.execRdbitData pin s
  | .rdbitDir pin => Sys2Proof.Machine.execRdbitDir pin s
  | .wrbitData pin val => Sys2Proof.Machine.execWrbitData pin val s
  | .wrbitDir pin val => Sys2Proof.Machine.execWrbitDir pin val s
  | .cfgdir pin val => Sys2Proof.Machine.execCfgdir pin val s
  | .wrpin pin val => Sys2Proof.Machine.execWrpin pin val s
  | .rdpin pin => Sys2Proof.Machine.execRdpin pin s
  | .tglpin pin => Sys2Proof.Machine.execTglpin pin s
  | .encb b => Sys2Proof.Machine.execEncb b s
  | .send => Sys2Proof.Machine.execSend s
  | .render => Sys2Proof.Machine.execRender s

end Sys2Proof.Machine
end

