-- ==== Sys2Proof/Machine/HostPort.lean ====
section
/-! DEFINITION. What the outside does to the block between steps: a reserved command word answered (30_encoding.md R75),
the reset input (70_reset_and_hazards.md R230), and the passing of a step while a reset is to come (log 3). -/

namespace Sys2Proof.Machine

/-- "A reserved word executes nothing … and the response is `respond(IllegalCommand, 0)`" (R75). -/
def rejectCommand (s : State) : State := s.respond .illegalCommand 0#16

/-- The host's inputs with its first one taken. -/
def State.withHost (s : State) (rest : List HostInput) : State := { s with host := rest }

/-- The reset input asserted: nothing of the block survives, and the outside goes on with its later inputs (R230). -/
def resetBlock (rest : List HostInput) : State := State.reset.withHost rest

/-- One step has gone by: a reset that is first among the inputs is one step nearer (log 3). -/
def State.countdown (s : State) : State :=
  match s.host with
  | .resetAfter (n + 1) :: rest => s.withHost (.resetAfter n :: rest)
  | _ => s

/-- A number as the 16-bit word it presents at the host port: its low `nbits` bits (log 14). -/
def portWord (nbits w : Nat) : CmdWord := BitVec.ofNat 16 (w % 2 ^ nbits)

end Sys2Proof.Machine
end

