-- ==== Sys2Proof/Machine/Step.lean ====
section
/-! DEFINITION. One step of the machine: reset if it is asserted, else the one agent that may step at SEQ
(10_state.md R18, R27; 60_exceptions.md R208; 70_reset_and_hazards.md R230). -/

namespace Sys2Proof.Machine

/-- A command word accepted: decode it first (R82), then run it, or answer IllegalCommand (R75). -/
def runCommand (w : CmdWord) (s : State) : Host.Outcome State Fault Refusal :=
  match decode w with
  | .ok i => exec i s
  | .error _ => .next (rejectCommand s)

/-- The host's turn, at IDLE or DONE: it issues its next command, or issues none and the block waits (R27, R81; log 6). -/
def hostTurn (s : State) : Host.Outcome State Fault Refusal :=
  match s.host with
  | .command w :: rest => runCommand w (s.withHost rest)
  | _ => .next s.countdown

/-- At ABORTED no agent has a step: the block waits for a reset that is to come, and is stuck without one (R208; log 7). -/
def abortedTurn (s : State) : Host.Outcome State Fault Refusal :=
  match s.host with
  | .resetAfter _ :: _ => .next s.countdown
  | _ => .fault .aborted

/-- One step of the machine. -/
def step (s : State) : Host.Outcome State Fault Refusal :=
  match s.host with
  | .resetAfter 0 :: rest => .next (resetBlock rest)
  | _ =>
    match s.seq.agent with
    | .host => hostTurn s
    | .sequencer => microStep Config.block s.countdown
    | .nobody => abortedTurn s

/-- `s` with the instruction whose bits are `w` presented as the host's next command, which the next step of a ready
block accepts and runs: the block fetches nothing, and a command arrives whole (R31, R52, R81; log 2). -/
def State.withFetchWord (s : State) (nbits w : Nat) : State :=
  s.withHost (.command (portWord nbits w) :: s.host)

end Sys2Proof.Machine
end

