-- ==== Sys2Proof/Machine/Assembler.lean ====
section
/-! DEFINITION. The assembler form of a command and the pseudo-commands (30_encoding.md R79, R80), over lists of
characters. The spec's operand order, numerals and separators are followed; what it leaves open of white space is log 11. -/

namespace Sys2Proof.Machine

/-- The commands a pseudo-command abbreviates, in order (R80). -/
def expand : Pseudo → List Instr
  | .sendbytes bytes => bytes.map Instr.encb ++ [.send]
  | .output pin => [.cfgdir pin 1]
  | .input pin => [.cfgdir pin 0]

/-- A number as it is written: "decimal or `0x` hexadecimal" (R79). -/
def numeralText (hex : Bool) (n : Nat) : List Char :=
  if hex then '0' :: 'x' :: Nat.toDigits 16 n else Nat.toDigits 10 n

/-- Operands as they are written: "comma separated", a space after each comma as in the examples of R79. -/
def operandsText : List (List Char) → List Char
  | [] => []
  | [op] => op
  | op :: ops => op ++ ',' :: ' ' :: operandsText ops

/-- A line as it is written: "its mnemonic followed by its operands" (R79). -/
def lineText (mnemonic : String) (ops : List (List Char)) : List Char :=
  match ops with
  | [] => mnemonic.toList
  | _ => mnemonic.toList ++ ' ' :: operandsText ops

/-- The operands of a command as they are written, "in the order PIN then VAL", each in one of the two bases (R79). -/
def operandTexts (pinHex valHex : Bool) : Instr → List (List Char)
  | .rdbitData pin => [numeralText pinHex pin]
  | .rdbitDir pin => [numeralText pinHex pin]
  | .wrbitData pin val => [numeralText pinHex pin, numeralText valHex val]
  | .wrbitDir pin val => [numeralText pinHex pin, numeralText valHex val]
  | .cfgdir pin val => [numeralText pinHex pin, numeralText valHex val]
  | .wrpin pin val => [numeralText pinHex pin, numeralText valHex val]
  | .rdpin pin => [numeralText pinHex pin]
  | .tglpin pin => [numeralText pinHex pin]
  | .encb b => [numeralText valHex b.toNat]
  | .send => []
  | .render => []

/-- A command as it is written (R79). -/
def commandText (pinHex valHex : Bool) (i : Instr) : List Char := lineText i.mnemonic (operandTexts pinHex valHex i)

/-- The value of a decimal digit. -/
def decDigit? (c : Char) : Option Nat :=
  if '0' ≤ c ∧ c ≤ '9' then some (c.toNat - '0'.toNat) else none

/-- The value of a hexadecimal digit, in either case. -/
def hexDigit? (c : Char) : Option Nat :=
  if 'a' ≤ c ∧ c ≤ 'f' then some (c.toNat - 'a'.toNat + 10)
  else if 'A' ≤ c ∧ c ≤ 'F' then some (c.toNat - 'A'.toNat + 10)
  else decDigit? c

/-- Digits in a base, most significant first, after the value read so far. -/
def digitsFrom (base : Nat) (digit? : Char → Option Nat) : Nat → List Char → Option Nat
  | v, [] => some v
  | v, c :: cs =>
    match digit? c with
    | none => none
    | some d => digitsFrom base digit? (base * v + d) cs

/-- An unsigned numeral, "decimal or `0x` hexadecimal" (R79). -/
def numeral? : List Char → Option Nat
  | [] => none
  | '0' :: 'x' :: [] => none
  | '0' :: 'x' :: cs => digitsFrom 16 hexDigit? 0 cs
  | cs => digitsFrom 10 decDigit? 0 cs

/-- A text without the spaces at its two ends. -/
def trim (cs : List Char) : List Char :=
  ((cs.dropWhile (· == ' ')).reverse.dropWhile (· == ' ')).reverse

/-- The parts of a text between its commas. -/
def splitCommas (cs : List Char) : List (List Char) :=
  cs.foldr (fun c acc =>
    match acc with
    | [] => [[c]]
    | part :: parts => if c == ',' then [] :: part :: parts else (c :: part) :: parts) [[]]

/-- The operands of a line, "comma separated"; a line without operands has none (R79). -/
def operands? (cs : List Char) : Option (List Nat) :=
  if trim cs = [] then some [] else (splitCommas cs).mapM fun part => numeral? (trim part)

/-- The commands a mnemonic with its operands, "in the order PIN then VAL", stands for, where every operand is in the
range an encoding can carry (R79, R80). -/
def lineCommands? (mnemonic : String) (ops : List Nat) : Option (List Instr) :=
  let is :=
    match ops with
    | [] =>
      if mnemonic = "SEND" then some [Instr.send]
      else if mnemonic = "RENDER" then some [.render]
      else none
    | [n] =>
      if mnemonic = "RDBIT.DATA" then some [.rdbitData n]
      else if mnemonic = "RDBIT.DIR" then some [.rdbitDir n]
      else if mnemonic = "RDPIN" then some [.rdpin n]
      else if mnemonic = "TGLPIN" then some [.tglpin n]
      else if mnemonic = "ENCB" then (if valEncodable n then some [.encb (BitVec.ofNat 8 n)] else none)
      else if mnemonic = "OUTPUT" then some (expand (.output n))
      else if mnemonic = "INPUT" then some (expand (.input n))
      else none
    | [n, v] =>
      if mnemonic = "WRBIT.DATA" then some [.wrbitData n v]
      else if mnemonic = "WRBIT.DIR" then some [.wrbitDir n v]
      else if mnemonic = "CFGDIR" then some [.cfgdir n v]
      else if mnemonic = "WRPIN" then some [.wrpin n v]
      else none
    | _ => none
  let bytes :=
    if mnemonic = "SENDBYTES" ∧ ops ≠ [] ∧ ops.all valEncodable then
      some (expand (.sendbytes (ops.map (BitVec.ofNat 8))))
    else none
  (is <|> bytes).filter fun cmds => cmds.all Instr.wellFormed

/-- One line of a program: its mnemonic, and after a space its operands (R79). -/
def assembleLine? (line : List Char) : Option (List Instr) :=
  let text := trim line
  match operands? (text.dropWhile (· != ' ')) with
  | none => none
  | some ops => lineCommands? (String.ofList (text.takeWhile (· != ' '))) ops

/-- "A program is a list of commands, one per line, executed in order" (R79): its command words. -/
def assemble? (lines : List (List Char)) : Option (List CmdWord) :=
  (lines.mapM assembleLine?).map fun cmds => cmds.flatten.map encode

end Sys2Proof.Machine
end

