-- ==== Sys2Proof/Safety.lean ====
section
/-! DEFINITION. What a safe run is, the invariant of the machine, and the terms the statements use: the trace replayed, the
events of a session counted, the transitions of the protocol state. -/

namespace Sys2Proof.Machine

/-- A safe state: no session has aborted. ABORTED "is never a final state of a correct run" (R208). -/
def State.safe (s : State) : Bool := s.seq != .aborted

/-- The running positions inside the transmission of a bit or before it: `A_*` and `T_*` (R29). -/
def SeqPos.inBits : SeqPos → Bool
  | .aToggle => true
  | .aTick => true
  | .tData => true
  | .tStrobe => true
  | .tReport => true
  | .tTick => true
  | _ => false

/-- The pin a role names is in 0 to 7 and its DIR bit is 1 (R121, R168). -/
def State.outputs (s : State) (role : Byte) : Bool := role.toNat < 8 && s.dir.getLsbD role.toNat

/-- The invariant of the machine: what the spec says of every state reached from reset. -/
structure Inv (c : Config) (s : State) : Prop where
  /-- "`len(BUF) mod 8 = 0` in every reachable state" (R25). -/
  bufWhole : s.buf.length % 8 = 0
  /-- "Its length never exceeds `BUF_CAP`" (R25). -/
  bufFits : overCap c.bufCap s.buf.length = false
  /-- IDX is 0 outside the bits of a session (R29, R150, R163). -/
  idxAtRest : s.seq.inBits = false → s.idx = 0
  /-- "`IDX < len(BUF)` in every `A_*` and `T_*` position" (R29). -/
  idxInBuf : s.seq.inBits = true → s.idx < s.buf.length
  /-- An acknowledgment is at the start of a byte (R157). -/
  ackAtByte : s.seq.fsm = .acknowledging → s.idx % 8 = 0
  /-- Once configured, the DATA line stays an output for the session (R168). -/
  dataIsOutput : s.seq = .iCfgClock ∨ s.seq.inBits = true → s.outputs c.dataPin = true
  /-- Once configured, CLOCK stays an output for the session (R168). -/
  clockIsOutput : s.seq.inBits = true → s.outputs c.clockPin = true
  /-- SETTLE_CNT is loaded with SETTLE_TICKS (R30, R150). -/
  settleLoaded : s.seq = .iReport → s.settleCnt = c.settleTicks
  /-- SETTLE_CNT only counts down (R30, R154). -/
  settleBounded : s.settleCnt ≤ c.settleTicks
  /-- SETTLE_CNT is used up once the settle ticks are over (R154). -/
  settleUsed : s.seq ≠ .iReport → s.seq ≠ .iSettle → s.settleCnt = 0
  /-- ABORT_CODE is `Ok` except at ABORTED (R30). -/
  abortCodeClear : s.seq ≠ .aborted → s.abortCode = .ok
  /-- "A session aborts only … with InvalidPin" (R168), and SEND then has that response (R207). -/
  abortLatched : s.seq = .aborted → s.abortCode = .invalidPin ∧ s.resp = some (respWord .invalidPin 0#16)
  /-- While a session runs the response port shows no word. R81 and R150 say only that SEND's response comes at the end of its
  session; that State.resp is `none` until then is the model's choice (log 4). -/
  sendPending : s.seq.agent = .sequencer → s.resp = none

/-- One event replayed on a pair of register bytes (DATA, DIR): a write sets its one bit, and a report must show the bytes
as they stand (R32). -/
def replayEvent (rs : Byte × Byte) : Event → Option (Byte × Byte)
  | .write .data p v => some (if v = 0#1 then rs.1 &&& ~~~(1#8 <<< p.val) else rs.1 ||| (1#8 <<< p.val), rs.2)
  | .write .dir p v => some (rs.1, if v = 0#1 then rs.2 &&& ~~~(1#8 <<< p.val) else rs.2 ||| (1#8 <<< p.val))
  | .report d r => if (d, r) = rs then some rs else none
  | .tick => some rs

/-- A trace replayed from the register bytes at its start: "what the hardware would see" is reconstructable (R32). -/
def replay : Byte × Byte → List Event → Option (Byte × Byte)
  | rs, [] => some rs
  | rs, e :: es =>
    match replayEvent rs e with
    | none => none
    | some rs' => replay rs' es

/-- `n` toggles of one pin in a row (R128). -/
def toggleTimes : Nat → State → Int → Except Status State
  | 0, s, _ => .ok s
  | n + 1, s, pin =>
    match togglePin s pin with
    | .error e => .error e
    | .ok t => toggleTimes n t pin

/-- Payload bytes encoded in order (R142, R80). -/
def encodeBytes (cap : Option Nat) : List Byte → State → State
  | [], s => s
  | b :: bs, s => encodeBytes cap bs (encodeByte cap b s)

/-- The level an event writes to a pin of DATA, if it does (R166). -/
def Event.dataWrite? (pin : Nat) : Event → Option Bit
  | .write .data p v => if p.val = pin then some v else none
  | _ => none

/-- An event is an `EvWrite` (R166). -/
def Event.isWrite : Event → Bool
  | .write _ _ _ => true
  | _ => false

/-- An event is an `EvReport` (R166). -/
def Event.isReport : Event → Bool
  | .report _ _ => true
  | _ => false

/-- An event is an `EvTick` (R166). -/
def Event.isTick : Event → Bool
  | .tick => true
  | _ => false

/-- The register a command may write one bit of, and the pin argument it names the bit by (R104, R105, R124, R125, R127);
nothing for a command that writes no register. -/
def commandTarget? : Instr → Option (Reg × Int)
  | .rdbitData _ => none
  | .rdbitDir _ => none
  | .wrbitData pin _ => some (.data, pinArg pin)
  | .wrbitDir pin _ => some (.dir, pinArg pin)
  | .cfgdir pin _ => some (.dir, pinArg pin)
  | .wrpin pin _ => some (.data, pinArg pin)
  | .rdpin _ => none
  | .tglpin pin => some (.data, pinArg pin)
  | .encb _ => none
  | .send => none
  | .render => none

/-- The register a micro-step may write one bit of, and the role that names the bit (R155, R156, R157, R159, R160). -/
def positionTarget? (c : Config) : SeqPos → Option (Reg × Int)
  | .idle => none
  | .iReport => none
  | .iSettle => none
  | .iCfgData => some (.dir, roleArg c.dataPin)
  | .iCfgClock => some (.dir, roleArg c.clockPin)
  | .aToggle => some (.data, roleArg c.clockPin)
  | .aTick => none
  | .tData => some (.data, roleArg c.dataPin)
  | .tStrobe => some (.data, roleArg c.clockPin)
  | .tReport => none
  | .tTick => none
  | .done => none
  | .aborted => none

/-- The one bit that a step may write: that of the command the host's word decodes to, or that of the running position; none
where no command is presented, where the pin is out of range, and in ABORTED (R22, R27). -/
def State.bitTarget? (s : State) : Option (Reg × Fin 8) :=
  let target :=
    match s.seq.agent with
    | .host =>
      match s.host with
      | .command w :: _ => (decode w).toOption.bind commandTarget?
      | _ => none
    | .sequencer => positionTarget? Config.block s.seq
    | .nobody => none
  target.bind fun rp => (pinIndex? rp.2).map fun p => (rp.1, p)

/-- The transitions of the protocol state that are no stutter (R151). -/
def fsmEdges : List (Fsm × Fsm) :=
  [(.idle, .initializing), (.done, .initializing),
   (.initializing, .acknowledging), (.initializing, .done),
   (.acknowledging, .transmitting),
   (.transmitting, .acknowledging), (.transmitting, .done),
   (.initializing, .aborted), (.acknowledging, .aborted), (.transmitting, .aborted)]

/-- The transitions of SEQ (R151), with the abort of the running positions that call a procedure (R164). -/
def seqEdges : List (SeqPos × SeqPos) :=
  [(.idle, .iReport), (.done, .iReport),
   (.iReport, .iSettle), (.iSettle, .iSettle), (.iSettle, .iCfgData), (.iCfgData, .iCfgClock),
   (.iCfgClock, .aToggle), (.iCfgClock, .done),
   (.aToggle, .aTick), (.aTick, .tData),
   (.tData, .tStrobe), (.tStrobe, .tReport), (.tReport, .tTick),
   (.tTick, .aToggle), (.tTick, .tData), (.tTick, .done),
   (.iCfgData, .aborted), (.iCfgClock, .aborted), (.aToggle, .aborted), (.tData, .aborted), (.tStrobe, .aborted)]

/-- The host presents commands only: no reset is to come. -/
def onlyCommands (host : List HostInput) : Bool :=
  host.all fun
    | .command _ => true
    | .resetAfter _ => false

/-- The reset input is asserted: this step is a reset (R230). -/
def State.resetNow (s : State) : Bool :=
  match s.host with
  | .resetAfter 0 :: _ => true
  | _ => false

/-- The command words of a list of commands, as the host presents them (R79, R81). -/
def presented (is : List Instr) : List HostInput := is.map fun i => .command (encode i)

end Sys2Proof.Machine
end

