-- ==== Sys2Proof/Certificates/Slice0/Obligations.lean ====
section
/-! DEFINITION. The statements about GPIO-BB. Each docstring names the rule of spec/ it formalises; a statement about `exec`
or `step` is about the block itself (its parameters are the opaque `Config.block`), a statement about the sequencer holds
for every configuration. -/

open Sys2Proof Sys2Proof.Machine

/-! ## Encoding -/

/-- Encode then decode is the identity on well-formed commands (R74). -/
def Obligations.DecodeOfEncodeIsTheCommand : Prop :=
  ∀ i : Instr, i.wellFormed = true → decode (encode i) = .ok i

/-- Decode then encode is the identity on legal words, and decoding gives well-formed commands only (R74). -/
def Obligations.EncodeOfDecodeIsTheWord : Prop :=
  ∀ (w : CmdWord) (i : Instr), decode w = .ok i → i.wellFormed = true ∧ encode i = w

/-- A word `w` selects a command exactly when `w & mask = match` of its row (R71, R73), and the eleven sets of words are
disjoint (R74). -/
def Obligations.DecodeFollowsTheOpcodeMap : Prop :=
  (∀ (w : CmdWord) (row : OpcodeRow), row ∈ opcodeTable →
    (w &&& row.mask = row.pattern ↔ ∃ i, decode w = .ok i ∧ i.mnemonic = row.mnemonic)) ∧
  (∀ (w : CmdWord) (a b : OpcodeRow), a ∈ opcodeTable → b ∈ opcodeTable →
    w &&& a.mask = a.pattern → w &&& b.mask = b.pattern → a = b)

/-- The reserved words are exactly those the spec lists; one that the host issues executes nothing, and is answered
IllegalCommand, code 5 (R75). -/
def Obligations.ReservedWordsExecuteNothing : Prop :=
  (∀ w : CmdWord, (∃ e, decode w = .error e) ↔
    ((w.toNat / 4096 = 0 ∨ 12 ≤ w.toNat / 4096) ∨
     ((w.toNat / 4096 = 1 ∨ w.toNat / 4096 = 2 ∨ w.toNat / 4096 = 7 ∨ w.toNat / 4096 = 8) ∧ w.toNat % 256 ≠ 0) ∨
     (w.toNat / 4096 = 9 ∧ w.toNat / 256 % 16 ≠ 0) ∨
     ((w.toNat / 4096 = 10 ∨ w.toNat / 4096 = 11) ∧ w.toNat % 4096 ≠ 0))) ∧
  (∀ (s : State) (w : CmdWord) (e : Reserved) (rest : List HostInput),
    s.ready = true → s.host = .command w :: rest → decode w = .error e →
    step s = .next { s with host := rest, resp := some 0x50000#20 })

/-- Of the 65536 words 16706 are legal (R74). -/
def Obligations.LegalWordsAreCounted : Prop :=
  ((List.range 65536).filter fun n => (decode (BitVec.ofNat 16 n)).toOption.isSome).length = 16706

/-- Words written out bit by bit from R70 and R73 decode to the commands they stand for. -/
def Obligations.WordsOfTheSpecDecode : Prop :=
  decode 0b0001001100000000#16 = .ok (.rdbitData 3) ∧ decode 0b0010010100000000#16 = .ok (.rdbitDir 5) ∧
  decode 0b0011001100000001#16 = .ok (.wrbitData 3 1) ∧ decode 0b0100001111111111#16 = .ok (.wrbitDir 3 255) ∧
  decode 0b0101010100000001#16 = .ok (.cfgdir 5 1) ∧ decode 0b0110100000000010#16 = .ok (.wrpin 8 2) ∧
  decode 0b0111001100000000#16 = .ok (.rdpin 3) ∧ decode 0b1000010100000000#16 = .ok (.tglpin 5) ∧
  decode 0b1001000000010101#16 = .ok (.encb 21#8) ∧ decode 0b1010000000000000#16 = .ok .send ∧
  decode 0b1011000000000000#16 = .ok .render

/-! ## The primitives -/

/-- Read after write, and no disturb (R106). -/
def Obligations.WriteThenReadWithoutDisturbance : Prop :=
  ∀ (s : State) (r : Reg) (p v : Int), 0 ≤ p → p ≤ 7 → (v = 0 ∨ v = 1) →
    ∃ t, writeBit s r p v = .ok t ∧ readBit t r p = .ok (BitVec.ofInt 8 v) ∧
      (∀ q : Int, 0 ≤ q → q ≤ 7 → q ≠ p → readBit t r q = readBit s r q) ∧
      (∀ r' : Reg, r' ≠ r → t.reg r' = s.reg r')

/-- Out-of-range pins fail with InvalidPin and values outside {0, 1} with InvalidValue, for every integer; the primitives
have no other failure (R107). -/
def Obligations.PrimitivesFailExactlyOutOfRange : Prop :=
  ∀ (s : State) (r : Reg) (pin value : Int),
    ((pin < 0 ∨ 7 < pin) →
      readBit s r pin = .error .invalidPin ∧ writeBit s r pin value = .error .invalidPin) ∧
    (0 ≤ pin → pin ≤ 7 → ∃ b, readBit s r pin = .ok b) ∧
    (0 ≤ pin → pin ≤ 7 → value ≠ 0 → value ≠ 1 → writeBit s r pin value = .error .invalidValue) ∧
    (0 ≤ pin → pin ≤ 7 → (value = 0 ∨ value = 1) → ∃ t, writeBit s r pin value = .ok t)

/-- After an odd number of toggles of an output pin its bit is the complement, after an even number the same; no other bit
and no direction changes; two toggles leave DATA as it was (R128). -/
def Obligations.TogglesOfAPinAlternate : Prop :=
  ∀ (s : State) (p : Nat), p < 8 → s.dir.getLsbD p = true →
    (∀ n : Nat, ∃ t, toggleTimes n s p = .ok t ∧ t.dir = s.dir ∧
      ∀ q : Nat, q < 8 → t.data.getLsbD q =
        if q = p ∧ n % 2 = 1 then !s.data.getLsbD q else s.data.getLsbD q) ∧
    (∃ t, toggleTimes 2 s p = .ok t ∧ t.data = s.data)

/-- `read_bit` returns 0 or 1, `toggle_pin` never raises InternalConsistencyFault, and no command answers it (R129). -/
def Obligations.InternalConsistencyFaultNeverArises : Prop :=
  (∀ (s : State) (r : Reg) (pin : Int) (b : Byte), readBit s r pin = .ok b → b = 0#8 ∨ b = 1#8) ∧
  (∀ (s : State) (pin : Int), togglePin s pin ≠ .error .internalConsistencyFault) ∧
  (∀ (i : Instr) (s t : State) (d : BitVec 16), exec i s = .next t →
    t.resp ≠ some (respWord .internalConsistencyFault d))

/-! ## The commands

Each of these statements says that the command completes in every ready state, with every operand an encoding carries. -/

/-- RDBIT.DATA p (R102). -/
def Obligations.RdbitDataAnswersTheDataBit : Prop :=
  ∀ (s : State) (p : Nat), s.ready = true → p < 16 →
    encode (.rdbitData p) = BitVec.ofNat 16 (0x1000 + p * 256) ∧
    decode (BitVec.ofNat 16 (0x1000 + p * 256)) = .ok (.rdbitData p) ∧
    (∀ v, 0 < v → v < 256 → decode (BitVec.ofNat 16 (0x1000 + p * 256 + v)) = .error .valNotZero) ∧
    exec (.rdbitData p) s = .next { s with
      resp := some (if p < 8 then (if s.data.getLsbD p then 0x00001#20 else 0x00000#20) else 0x10000#20) }

/-- RDBIT.DIR p (R103). -/
def Obligations.RdbitDirAnswersTheDirBit : Prop :=
  ∀ (s : State) (p : Nat), s.ready = true → p < 16 →
    encode (.rdbitDir p) = BitVec.ofNat 16 (0x2000 + p * 256) ∧
    decode (BitVec.ofNat 16 (0x2000 + p * 256)) = .ok (.rdbitDir p) ∧
    (∀ v, 0 < v → v < 256 → decode (BitVec.ofNat 16 (0x2000 + p * 256 + v)) = .error .valNotZero) ∧
    exec (.rdbitDir p) s = .next { s with
      resp := some (if p < 8 then (if s.dir.getLsbD p then 0x00001#20 else 0x00000#20) else 0x10000#20) }

/-- RDPIN p: as RDBIT.DATA, whatever the direction (R126). -/
def Obligations.RdpinAnswersTheDataBit : Prop :=
  ∀ (s : State) (p : Nat), s.ready = true → p < 16 →
    encode (.rdpin p) = BitVec.ofNat 16 (0x7000 + p * 256) ∧
    decode (BitVec.ofNat 16 (0x7000 + p * 256)) = .ok (.rdpin p) ∧
    (∀ v, 0 < v → v < 256 → decode (BitVec.ofNat 16 (0x7000 + p * 256 + v)) = .error .valNotZero) ∧
    exec (.rdpin p) s = .next { s with
      resp := some (if p < 8 then (if s.data.getLsbD p then 0x00001#20 else 0x00000#20) else 0x10000#20) } ∧
    exec (.rdpin p) s = exec (.rdbitData p) s

/-- WRBIT.DATA p, v: no direction guard; bit p of DATA becomes v and nothing else changes but the trace; InvalidPin before
InvalidValue, and then nothing changes (R104). -/
def Obligations.WrbitDataWritesOneDataBit : Prop :=
  ∀ (s : State) (p v : Nat), s.ready = true → p < 16 → v < 256 →
    encode (.wrbitData p v) = BitVec.ofNat 16 (0x3000 + p * 256 + v) ∧
    decode (BitVec.ofNat 16 (0x3000 + p * 256 + v)) = .ok (.wrbitData p v) ∧
    (8 ≤ p → exec (.wrbitData p v) s = .next { s with resp := some 0x10000#20 }) ∧
    (p < 8 → 2 ≤ v → exec (.wrbitData p v) s = .next { s with resp := some 0x20000#20 }) ∧
    (∀ hp : p < 8, v < 2 → ∃ d : Byte,
      exec (.wrbitData p v) s = .next { s with
        data := d, trace := s.trace ++ [.write .data ⟨p, hp⟩ (BitVec.ofNat 1 v)], resp := some 0x00000#20 } ∧
      ∀ q : Nat, q < 8 → d.getLsbD q = if q = p then decide (v = 1) else s.data.getLsbD q)

/-- WRBIT.DIR p, v: bit p of DIR becomes v; it has the effect of CFGDIR p, v (R105). -/
def Obligations.WrbitDirWritesOneDirBit : Prop :=
  ∀ (s : State) (p v : Nat), s.ready = true → p < 16 → v < 256 →
    encode (.wrbitDir p v) = BitVec.ofNat 16 (0x4000 + p * 256 + v) ∧
    decode (BitVec.ofNat 16 (0x4000 + p * 256 + v)) = .ok (.wrbitDir p v) ∧
    (8 ≤ p → exec (.wrbitDir p v) s = .next { s with resp := some 0x10000#20 }) ∧
    (p < 8 → 2 ≤ v → exec (.wrbitDir p v) s = .next { s with resp := some 0x20000#20 }) ∧
    (∀ hp : p < 8, v < 2 → ∃ d : Byte,
      exec (.wrbitDir p v) s = .next { s with
        dir := d, trace := s.trace ++ [.write .dir ⟨p, hp⟩ (BitVec.ofNat 1 v)], resp := some 0x00000#20 } ∧
      ∀ q : Nat, q < 8 → d.getLsbD q = if q = p then decide (v = 1) else s.dir.getLsbD q) ∧
    exec (.wrbitDir p v) s = exec (.cfgdir p v) s

/-- CFGDIR p, v: bit p of DIR becomes v, DATA keeps its bit (R124). -/
def Obligations.CfgdirSetsOneDirection : Prop :=
  ∀ (s : State) (p v : Nat), s.ready = true → p < 16 → v < 256 →
    encode (.cfgdir p v) = BitVec.ofNat 16 (0x5000 + p * 256 + v) ∧
    decode (BitVec.ofNat 16 (0x5000 + p * 256 + v)) = .ok (.cfgdir p v) ∧
    (8 ≤ p → exec (.cfgdir p v) s = .next { s with resp := some 0x10000#20 }) ∧
    (p < 8 → 2 ≤ v → exec (.cfgdir p v) s = .next { s with resp := some 0x20000#20 }) ∧
    (∀ hp : p < 8, v < 2 → ∃ d : Byte,
      exec (.cfgdir p v) s = .next { s with
        dir := d, trace := s.trace ++ [.write .dir ⟨p, hp⟩ (BitVec.ofNat 1 v)], resp := some 0x00000#20 } ∧
      ∀ q : Nat, q < 8 → d.getLsbD q = if q = p then decide (v = 1) else s.dir.getLsbD q)

/-- WRPIN p, v: InvalidPin, then PinNotConfigured, then InvalidValue; else bit p of DATA becomes v (R125). -/
def Obligations.WrpinWritesAnOutputPin : Prop :=
  ∀ (s : State) (p v : Nat), s.ready = true → p < 16 → v < 256 →
    encode (.wrpin p v) = BitVec.ofNat 16 (0x6000 + p * 256 + v) ∧
    decode (BitVec.ofNat 16 (0x6000 + p * 256 + v)) = .ok (.wrpin p v) ∧
    (8 ≤ p → exec (.wrpin p v) s = .next { s with resp := some 0x10000#20 }) ∧
    (p < 8 → s.dir.getLsbD p = false → exec (.wrpin p v) s = .next { s with resp := some 0x30000#20 }) ∧
    (p < 8 → s.dir.getLsbD p = true → 2 ≤ v →
      exec (.wrpin p v) s = .next { s with resp := some 0x20000#20 }) ∧
    (∀ hp : p < 8, s.dir.getLsbD p = true → v < 2 → ∃ d : Byte,
      exec (.wrpin p v) s = .next { s with
        data := d, trace := s.trace ++ [.write .data ⟨p, hp⟩ (BitVec.ofNat 1 v)], resp := some 0x00000#20 } ∧
      ∀ q : Nat, q < 8 → d.getLsbD q = if q = p then decide (v = 1) else s.data.getLsbD q)

/-- TGLPIN p: InvalidPin, then PinNotConfigured; else bit p of DATA is complemented (R127). -/
def Obligations.TglpinComplementsAnOutputPin : Prop :=
  ∀ (s : State) (p : Nat), s.ready = true → p < 16 →
    encode (.tglpin p) = BitVec.ofNat 16 (0x8000 + p * 256) ∧
    decode (BitVec.ofNat 16 (0x8000 + p * 256)) = .ok (.tglpin p) ∧
    (∀ v, 0 < v → v < 256 → decode (BitVec.ofNat 16 (0x8000 + p * 256 + v)) = .error .valNotZero) ∧
    (8 ≤ p → exec (.tglpin p) s = .next { s with resp := some 0x10000#20 }) ∧
    (p < 8 → s.dir.getLsbD p = false → exec (.tglpin p) s = .next { s with resp := some 0x30000#20 }) ∧
    (∀ hp : p < 8, s.dir.getLsbD p = true → ∃ d : Byte,
      exec (.tglpin p) s = .next { s with
        data := d, trace := s.trace ++ [.write .data ⟨p, hp⟩ (BitVec.ofBool (!s.data.getLsbD p))],
        resp := some 0x00000#20 } ∧
      ∀ q : Nat, q < 8 → d.getLsbD q = if q = p then !s.data.getLsbD q else s.data.getLsbD q)

/-- ENCB b appends b[7] .. b[0] and answers Ok, or answers BufferFull and changes nothing, for every BUF_CAP; with BUF_CAP
unbounded it never answers BufferFull (R140, R141). -/
def Obligations.EncbAppendsTheByteOrIsFull : Prop :=
  ∀ (s : State) (b : Byte), s.ready = true →
    encode (.encb b) = BitVec.ofNat 16 (0x9000 + b.toNat) ∧
    decode (BitVec.ofNat 16 (0x9000 + b.toNat)) = .ok (.encb b) ∧
    (∀ p, 0 < p → p < 16 → decode (BitVec.ofNat 16 (0x9000 + p * 256 + b.toNat)) = .error .pinNotZero) ∧
    exec (.encb b) s = .next (encodeByte Config.block.bufCap b s) ∧
    (∀ cap : Option Nat,
      (∀ m, cap = some m → m < s.buf.length + 8 →
        encodeByte cap b s = { s with resp := some 0x60000#20 }) ∧
      ((∀ m, cap = some m → s.buf.length + 8 ≤ m) →
        encodeByte cap b s = { s with
          buf := s.buf ++ (List.range 8).map (fun k => BitVec.ofBool (b.getLsbD (7 - k))),
          resp := some 0x00000#20 }))

/-- SEND starts a session; DATA, DIR, BUF and TRACE are as they were; a word 0xA001 to 0xAFFF is IllegalCommand. So far R150,
which says of the response only that there is none yet: that the response port then shows no word (`resp := none`) is the
model's choice (log 4, DESIGN CHOICE). -/
def Obligations.SendStartsASession : Prop :=
  encode .send = 0xA000#16 ∧ decode 0xA000#16 = .ok .send ∧
  (∀ n, 0 < n → n < 4096 → decode (BitVec.ofNat 16 (0xA000 + n)) = .error .operandsNotZero) ∧
  ∀ s : State, (s.seq = .idle ∨ s.seq = .done) →
    exec .send s = .next { s with
      idx := 0, settleCnt := Config.block.settleTicks, abortCode := .ok, seq := .iReport, resp := none }

/-- RENDER answers both register bytes, DATA in data[15:8] and DIR in data[7:0], the same bits that sixteen single reads
give, and changes nothing; a word 0xB001 to 0xBFFF is IllegalCommand (R190, R51). -/
def Obligations.RenderAnswersBothRegisters : Prop :=
  encode .render = 0xB000#16 ∧ decode 0xB000#16 = .ok .render ∧
  (∀ n, 0 < n → n < 4096 → decode (BitVec.ofNat 16 (0xB000 + n)) = .error .operandsNotZero) ∧
  ∀ s : State, s.ready = true → ∃ w : RespWord,
    exec .render s = .next { s with resp := some w } ∧
    w.toNat = s.data.toNat * 256 + s.dir.toNat ∧
    ∀ p : Nat, p < 8 →
      readBit s .data p = .ok (if w.getLsbD (8 + p) then 1#8 else 0#8) ∧
      readBit s .dir p = .ok (if w.getLsbD p then 1#8 else 0#8)

/-- A command completes exactly while the block is ready; the model's name for the host having no step is the fault
`notReady` (R27, U14; log 5). -/
def Obligations.CommandsCompleteExactlyWhileReady : Prop :=
  ∀ (i : Instr) (s : State),
    ((s.seq = .idle ∨ s.seq = .done) → ∃ t, exec i s = .next t) ∧
    (s.seq ≠ .idle → s.seq ≠ .done → exec i s = .fault .notReady)

/-- An error in a command changes nothing but the response, and the block accepts the next command (R206, R82). -/
def Obligations.FailedCommandsChangeNothing : Prop :=
  ∀ (i : Instr) (s t : State) (e : Status) (d : BitVec 16), exec i s = .next t → e ≠ .ok →
    t.resp = some (respWord e d) → d = 0#16 ∧ t = { s with resp := some (respWord e 0#16) } ∧ t.ready = true

/-- A command other than SEND and ENCB cannot show SEQ, IDX, SETTLE_CNT, ABORT_CODE, BUF, the trace or an earlier response:
its response and its effect on the registers depend on the registers alone (R37, R33). -/
def Obligations.HiddenStateIsNotReadable : Prop :=
  ∀ (i : Instr) (s u t : State), u.data = s.data → u.dir = s.dir → u.ready = true →
    i ≠ .send → (∀ b, i ≠ .encb b) → exec i s = .next t →
    ∃ t', exec i u = .next t' ∧ t'.resp = t.resp ∧ t'.data = t.data ∧ t'.dir = t.dir

/-! ## The micro-steps, for every configuration -/

/-- The two reports: I_REPORT (R153) and T_REPORT; reports are made at these two places only (R161). -/
def Obligations.ReportStepsShowTheRegisters : Prop :=
  ∀ (c : Config) (s : State),
    (s.seq = .iReport →
      microStep c s = .next { s with trace := s.trace ++ [.report s.data s.dir], seq := .iSettle }) ∧
    (s.seq = .tReport →
      microStep c s = .next { s with trace := s.trace ++ [.report s.data s.dir], seq := .tTick }) ∧
    (∀ t, s.seq ≠ .iReport → s.seq ≠ .tReport → microStep c s = .next t →
      t.trace.countP Event.isReport = s.trace.countP Event.isReport)

/-- I_SETTLE emits exactly SETTLE_CNT ticks, one a step, and then one step with no event moves on (R154). -/
def Obligations.SettleEmitsItsTicksAndMovesOn : Prop :=
  ∀ (c : Config) (s : State), s.seq = .iSettle →
    (∀ k, k ≤ s.settleCnt → microSteps c k s = .next { s with
      trace := s.trace ++ List.replicate k .tick, settleCnt := s.settleCnt - k }) ∧
    microSteps c (s.settleCnt + 1) s = .next { s with
      trace := s.trace ++ List.replicate s.settleCnt .tick, settleCnt := 0, seq := .iCfgData }

/-- I_CFG_DATA: the DATA line becomes an output, or the session aborts with InvalidPin and DATA and DIR unchanged
(R155). -/
def Obligations.DataLineIsConfiguredOrAborts : Prop :=
  ∀ (c : Config) (s : State), s.seq = .iCfgData →
    (7 < c.dataPin.toNat → microStep c s = .next { s with
      abortCode := .invalidPin, seq := .aborted, resp := some 0x10000#20 }) ∧
    (∀ hp : c.dataPin.toNat < 8, ∃ d : Byte,
      microStep c s = .next { s with
        dir := d, trace := s.trace ++ [.write .dir ⟨c.dataPin.toNat, hp⟩ 1#1], seq := .iCfgClock } ∧
      ∀ q : Nat, q < 8 → d.getLsbD q = (decide (q = c.dataPin.toNat) || s.dir.getLsbD q))

/-- I_CFG_CLOCK: CLOCK becomes an output and index 0 is dispatched, to the acknowledgment, or to the end of the session with
an empty buffer; or the session aborts with InvalidPin and DIR as I_CFG_DATA left it (R156). -/
def Obligations.ClockIsConfiguredOrAborts : Prop :=
  ∀ (c : Config) (s : State), s.seq = .iCfgClock →
    (7 < c.clockPin.toNat → microStep c s = .next { s with
      abortCode := .invalidPin, seq := .aborted, resp := some 0x10000#20 }) ∧
    (∀ hp : c.clockPin.toNat < 8, ∃ d : Byte,
      (s.buf = [] → microStep c s = .next { s with
        dir := d, trace := s.trace ++ [.write .dir ⟨c.clockPin.toNat, hp⟩ 1#1],
        buf := [], idx := 0, seq := .done, resp := some 0x00000#20 }) ∧
      (s.buf ≠ [] → microStep c s = .next { s with
        dir := d, trace := s.trace ++ [.write .dir ⟨c.clockPin.toNat, hp⟩ 1#1], idx := 0, seq := .aToggle }) ∧
      ∀ q : Nat, q < 8 → d.getLsbD q = (decide (q = c.clockPin.toNat) || s.dir.getLsbD q))

/-- A_TOGGLE and T_STROBE complement the CLOCK bit of DATA and move on; were `toggle_pin` to raise, the session would abort
(R157, R160, R164). -/
def Obligations.ClockStepsComplementClock : Prop :=
  ∀ (c : Config) (s : State) (next : SeqPos),
    ((s.seq = .aToggle ∧ next = .aTick) ∨ (s.seq = .tStrobe ∧ next = .tReport)) →
    (∀ hp : c.clockPin.toNat < 8, s.dir.getLsbD c.clockPin.toNat = true → ∃ d : Byte,
      microStep c s = .next { s with
        data := d,
        trace := s.trace ++ [.write .data ⟨c.clockPin.toNat, hp⟩ (BitVec.ofBool (!s.data.getLsbD c.clockPin.toNat))],
        seq := next } ∧
      ∀ q : Nat, q < 8 → d.getLsbD q =
        if q = c.clockPin.toNat then !s.data.getLsbD q else s.data.getLsbD q) ∧
    (7 < c.clockPin.toNat → microStep c s = .next { s with
      abortCode := .invalidPin, seq := .aborted, resp := some 0x10000#20 }) ∧
    (c.clockPin.toNat < 8 → s.dir.getLsbD c.clockPin.toNat = false → microStep c s = .next { s with
      abortCode := .pinNotConfigured, seq := .aborted, resp := some 0x30000#20 })

/-- T_DATA writes `BUF[IDX]` to the DATA line, also when the level does not change; were `write_pin` to raise, the session
would abort (R159, R164). -/
def Obligations.DataStepWritesTheBit : Prop :=
  ∀ (c : Config) (s : State) (b : Bit), s.seq = .tData → s.buf[s.idx]? = some b →
    (∀ hp : c.dataPin.toNat < 8, s.dir.getLsbD c.dataPin.toNat = true → ∃ d : Byte,
      microStep c s = .next { s with
        data := d, trace := s.trace ++ [.write .data ⟨c.dataPin.toNat, hp⟩ b], seq := .tStrobe } ∧
      ∀ q : Nat, q < 8 → d.getLsbD q = if q = c.dataPin.toNat then decide (b = 1#1) else s.data.getLsbD q) ∧
    (7 < c.dataPin.toNat → microStep c s = .next { s with
      abortCode := .invalidPin, seq := .aborted, resp := some 0x10000#20 }) ∧
    (c.dataPin.toNat < 8 → s.dir.getLsbD c.dataPin.toNat = false → microStep c s = .next { s with
      abortCode := .pinNotConfigured, seq := .aborted, resp := some 0x30000#20 })

/-- A_TICK and T_TICK: a tick; then the bit at IDX, or the dispatch of IDX + 1: the end of the session after the last bit,
an acknowledgment at a multiple of 8, else the next bit (R158, R162, R152, R163). -/
def Obligations.TickStepsMoveOn : Prop :=
  ∀ (c : Config) (s : State),
    (s.seq = .aTick → microStep c s = .next { s with trace := s.trace ++ [.tick], seq := .tData }) ∧
    (s.seq = .tTick →
      (s.buf.length ≤ s.idx + 1 → microStep c s = .next { s with
        trace := s.trace ++ [.tick], buf := [], idx := 0, seq := .done, resp := some 0x00000#20 }) ∧
      (s.idx + 1 < s.buf.length → (s.idx + 1) % 8 = 0 → microStep c s = .next { s with
        trace := s.trace ++ [.tick], idx := s.idx + 1, seq := .aToggle }) ∧
      (s.idx + 1 < s.buf.length → (s.idx + 1) % 8 ≠ 0 → microStep c s = .next { s with
        trace := s.trace ++ [.tick], idx := s.idx + 1, seq := .tData }))

/-! ## Whole sessions, for every configuration -/

/-- The micro-steps perform the session of R165 as one loop, whatever the parameters, the buffer and the registers: it ends
in DONE or ABORTED in the very state the loop leaves (R165). -/
def Obligations.MicroStepsPerformTheLoop : Prop :=
  ∀ (c : Config) (s : State), ∃ k, k ≤ c.settleTicks + 4 + 6 * s.buf.length ∧
    microSteps c k (s.startSession c) = .next (session c s) ∧
    ((session c s).seq = .done ∨ (session c s).seq = .aborted)

/-- With both pins in range a session reaches DONE in an exact number of micro-steps: BUF is discarded, both pins are outputs,
no other direction changed, and SEND is answered Ok (R163). -/
def Obligations.SessionsReachDone : Prop :=
  ∀ (c : Config) (s : State), c.dataPin.toNat < 8 → c.clockPin.toNat < 8 →
    ∃ t, microSteps c (c.settleTicks + 4 + 4 * s.buf.length + 2 * ackCount s.buf.length) (s.startSession c) = .next t ∧
      t.seq = .done ∧ t.buf = [] ∧ t.idx = 0 ∧ t.abortCode = .ok ∧ t.resp = some 0x00000#20 ∧ t.host = s.host ∧
      ∀ q : Nat, q < 8 → t.dir.getLsbD q =
        (decide (q = c.dataPin.toNat) || decide (q = c.clockPin.toNat) || s.dir.getLsbD q)

/-- A session aborts exactly when a role's pin is out of range, always with InvalidPin and with DATA and BUF unchanged; the
DIR bit set by I_CFG_DATA stays set (R168, R155, R156, R207). -/
def Obligations.SessionsAbortOnlyOnABadPin : Prop :=
  ∀ (c : Config) (s : State),
    (∀ (k : Nat) (t : State), microSteps c k (s.startSession c) = .next t → t.seq = .aborted →
      (7 < c.dataPin.toNat ∨ 7 < c.clockPin.toNat) ∧ t.abortCode = .invalidPin ∧ t.resp = some 0x10000#20 ∧
      t.data = s.data ∧ t.buf = s.buf ∧
      ∀ q : Nat, q < 8 → t.dir.getLsbD q = (decide (q = c.dataPin.toNat) || s.dir.getLsbD q)) ∧
    ((7 < c.dataPin.toNat ∨ 7 < c.clockPin.toNat) →
      ∃ k t, microSteps c k (s.startSession c) = .next t ∧ t.seq = .aborted)

/-- The trace of a session that reaches DONE: the first report, the settle ticks, the two configurations (DATA line first),
and then for each bit, in order, the acknowledgment window if its index is a multiple of 8, the DATA-line write of
`BUF[i]`, the strobe with no event between, the report and the tick (R167). -/
def Obligations.SessionTraceHasTheOrderOfTheBits : Prop :=
  ∀ (c : Config) (s : State) (hd : c.dataPin.toNat < 8) (hc : c.clockPin.toNat < 8) (k : Nat) (t : State),
    microSteps c k (s.startSession c) = .next t → t.seq = .done →
    ∃ blocks : List (List Event),
      t.trace = s.trace ++ [.report s.data s.dir] ++ List.replicate c.settleTicks .tick ++
        [.write .dir ⟨c.dataPin.toNat, hd⟩ 1#1, .write .dir ⟨c.clockPin.toNat, hc⟩ 1#1] ++ blocks.flatten ∧
      blocks.length = s.buf.length ∧
      ∀ (i : Nat) (b : Bit), s.buf[i]? = some b → ∃ (a strobe : Bit) (d r : Byte),
        blocks[i]? = some ((if i % 8 = 0 then [.write .data ⟨c.clockPin.toNat, hc⟩ a, .tick] else []) ++
          [.write .data ⟨c.dataPin.toNat, hd⟩ b, .write .data ⟨c.clockPin.toNat, hc⟩ strobe, .report d r, .tick])

/-- The counts of a session of n bits with a = ceil(n / 8) acknowledgment windows: events of each kind, DATA-line writes,
CLOCK toggles, and the parity of CLOCK (R166). -/
def Obligations.SessionEventsAreCounted : Prop :=
  ∀ (c : Config) (s : State) (k : Nat) (t : State),
    c.dataPin.toNat < 8 → c.clockPin.toNat < 8 → c.dataPin ≠ c.clockPin →
    microSteps c k (s.startSession c) = .next t → t.seq = .done →
    ∃ events, t.trace = s.trace ++ events ∧
      events.countP Event.isReport = 1 + s.buf.length ∧
      events.countP Event.isTick = c.settleTicks + ackCount s.buf.length + s.buf.length ∧
      events.countP Event.isWrite = 2 + ackCount s.buf.length + 2 * s.buf.length ∧
      (events.filterMap (Event.dataWrite? c.dataPin.toNat)).length = s.buf.length ∧
      (events.filterMap (Event.dataWrite? c.clockPin.toNat)).length = s.buf.length + ackCount s.buf.length ∧
      t.data.getLsbD c.clockPin.toNat =
        (if (s.buf.length + ackCount s.buf.length) % 2 = 1 then !s.data.getLsbD c.clockPin.toNat
          else s.data.getLsbD c.clockPin.toNat)

/-- What is transmitted is exactly the bits of the buffer, in order: the levels written to the DATA line in a session are BUF
(R143, R25), and no pin but the two roles is written. -/
def Obligations.DataLineCarriesTheBuffer : Prop :=
  ∀ (c : Config) (s : State) (k : Nat) (t : State),
    c.dataPin.toNat < 8 → c.clockPin.toNat < 8 → c.dataPin ≠ c.clockPin →
    microSteps c k (s.startSession c) = .next t → t.seq = .done →
    ∃ events, t.trace = s.trace ++ events ∧
      events.filterMap (Event.dataWrite? c.dataPin.toNat) = s.buf ∧
      ∀ q : Nat, q < 8 → q ≠ c.dataPin.toNat → q ≠ c.clockPin.toNat →
        t.data.getLsbD q = s.data.getLsbD q ∧ events.filterMap (Event.dataWrite? q) = []

/-- SEND with an empty buffer: the report, the settle ticks, both configurations, and Done; DATA is untouched (R169). -/
def Obligations.EmptyBufferSessionOnlyConfigures : Prop :=
  ∀ (c : Config) (s : State) (hd : c.dataPin.toNat < 8) (hc : c.clockPin.toNat < 8), s.buf = [] →
    ∃ t, microSteps c (c.settleTicks + 4) (s.startSession c) = .next t ∧
      t.seq = .done ∧ t.resp = some 0x00000#20 ∧ t.data = s.data ∧ t.buf = [] ∧
      t.trace = s.trace ++ [.report s.data s.dir] ++ List.replicate c.settleTicks .tick ++
        [.write .dir ⟨c.dataPin.toNat, hd⟩ 1#1, .write .dir ⟨c.clockPin.toNat, hc⟩ 1#1]

/-- Both roles on one pin: after a session the pin holds the complement of the last bit (R170 and program P7). -/
def Obligations.SharedPinEndsAtTheComplement : Prop :=
  ∀ (c : Config) (s : State) (k : Nat) (t : State) (b : Bit),
    c.dataPin.toNat < 8 → c.clockPin = c.dataPin → s.buf.getLast? = some b →
    microSteps c k (s.startSession c) = .next t → t.seq = .done →
    t.data.getLsbD c.dataPin.toNat = decide (b = 0#1)

/-- Bytes encoded in order fill BUF most significant bit first: n bytes add 8n bits, and bit k of byte j is its bit 7 - k;
the bits already in BUF keep their places (R142). -/
def Obligations.EncodedBytesFillTheBuffer : Prop :=
  ∀ (s : State) (bytes : List Byte),
    (encodeBytes none bytes s).buf.length = s.buf.length + 8 * bytes.length ∧
    (∀ i, i < s.buf.length → (encodeBytes none bytes s).buf[i]? = s.buf[i]?) ∧
    (∀ (j k : Nat) (b : Byte), bytes[j]? = some b → k < 8 →
      (encodeBytes none bytes s).buf[s.buf.length + 8 * j + k]? = some (BitVec.ofBool (b.getLsbD (7 - k))))

/-! ## The machine -/

/-- A command word that the host issues to a ready block and that decodes to a command runs as that command, and nothing else
is done around it (R81, R82). -/
def Obligations.StepRunsTheDecodedCommand : Prop :=
  ∀ (s : State) (w : CmdWord) (i : Instr) (rest : List HostInput),
    s.ready = true → s.host = .command w :: rest → decode w = .ok i →
    step s = exec i { s with host := rest }

/-- Which agent steps: a running session runs its micro-step and accepts no command, which stays with the host (R27, R242);
a ready block with nothing presented waits, and an aborted one is stuck: log 6 and log 7 of the model. -/
def Obligations.OneAgentStepsAtATime : Prop :=
  ∀ s : State, onlyCommands s.host = true →
    (s.seq.agent = .sequencer → step s = microStep Config.block s ∧
      ∀ t, step s = .next t → t.host = s.host) ∧
    (s.ready = true → s.host = [] → step s = .next s) ∧
    (s.seq = .aborted → step s = .fault .aborted)

/-- Reset leaves the values of R35, each register one of 0x00 and 0xFF. -/
def Obligations.ResetLeavesTheSpecifiedState : Prop :=
  State.reset.data = Config.block.dataInit.byte ∧ State.reset.dir = Config.block.dirInit.byte ∧
  (State.reset.data = 0x00#8 ∨ State.reset.data = 0xFF#8) ∧ (State.reset.dir = 0x00#8 ∨ State.reset.dir = 0xFF#8) ∧
  State.reset.buf = [] ∧ State.reset.seq = .idle ∧ State.reset.idx = 0 ∧ State.reset.settleCnt = 0 ∧
  State.reset.abortCode = .ok ∧ State.reset.trace = []

/-- The outputs of the block: the pads show the two registers (R36), and `ready` is 1 exactly in IDLE and DONE (R81). -/
def Obligations.OutputsShowTheState : Prop :=
  ∀ s : State, s.padOut = s.data ∧ s.padOe = s.dir ∧ (s.ready = true ↔ s.seq = .idle ∨ s.seq = .done)

/-- Reset may come at any time: from every state of the invariant, in a session and in ABORTED too, a reset that is to come
after n steps leaves the reset state after n + 1 (R230; the count of steps is log 3). -/
def Obligations.ResetArrivesFromEveryState : Prop :=
  ∀ (s : State) (n : Nat) (rest : List HostInput), Inv Config.block s → s.host = .resetAfter n :: rest →
    Host.Core.run core (n + 1) s = .next { State.reset with host := rest }

/-- In ABORTED nothing of the block changes and no command is accepted; only reset leaves it (R208). -/
def Obligations.OnlyResetLeavesAborted : Prop :=
  ∀ s t : State, s.seq = .aborted → step s = .next t →
    (t = { s with host := t.host } ∧ ∃ n rest, s.host = .resetAfter (n + 1) :: rest ∧ t.host = .resetAfter n :: rest) ∨
    (∃ rest, s.host = .resetAfter 0 :: rest ∧ t = { State.reset with host := rest })

/-- The reset state has the invariant; its clause `sendPending` is the model's choice (log 4), and holds here because no session
runs. -/
def Obligations.ResetHasTheInvariant : Prop := Inv Config.block State.reset

/-- Every step of the machine keeps the invariant: the buffer is whole bytes within its capacity, IDX is inside it in every
`A_*` and `T_*` position, the configured pins stay outputs, ABORT_CODE is Ok except at ABORTED (R25, R29, R30, R168). One clause
of `Inv`, that State.resp is `none` while a session runs (`sendPending`), is the model's choice (log 4, DESIGN CHOICE): R81 and
R150 say only when the response of SEND comes. -/
def Obligations.EveryStepKeepsTheInvariant : Prop :=
  ∀ s t : State, Inv Config.block s → step s = .next t → Inv Config.block t

/-- From a state of the invariant a step answers a next state, or the session has aborted and no reset is to come: the machine
stops nowhere else and refuses nothing (R208, R168). -/
def Obligations.OnlyAnAbortStopsTheMachine : Prop :=
  ∀ s : State, Inv Config.block s →
    (∃ t, step s = .next t) ∨
    (s.seq = .aborted ∧ s.abortCode = .invalidPin ∧ step s = .fault .aborted)

/-- "Every mutation touches exactly one bit position": a step that is no reset leaves both registers alone and emits no
EvWrite, or it writes the one bit that the decoded command, or the running position with its role, names; the EvWrite it
appends names that bit and its new value, and every other bit of both registers is as it was (R22, R101, R32). -/
def Obligations.AStepChangesAtMostOneBit : Prop :=
  ∀ s t : State, s.resetNow = false → step s = .next t →
    (t.data = s.data ∧ t.dir = s.dir ∧ t.trace.countP Event.isWrite = s.trace.countP Event.isWrite) ∨
    (∃ (r : Reg) (p : Fin 8) (v : Bit), s.bitTarget? = some (r, p) ∧ t.trace = s.trace ++ [.write r p v] ∧
      ∀ (r' : Reg) (q : Fin 8), (t.reg r').getLsbD q.val =
        if r' = r ∧ q = p then decide (v = 1#1) else (s.reg r').getLsbD q.val)

/-- The direction register is the write permission of DATA: a step that changes a DATA bit whose pin is an input is a
WRBIT.DATA of that pin, or a reset (R58). -/
def Obligations.InputPinsKeepTheirDataBit : Prop :=
  ∀ (s t : State) (p : Nat), p < 8 → s.resetNow = false → step s = .next t →
    s.dir.getLsbD p = false → t.data.getLsbD p ≠ s.data.getLsbD p →
    ∃ (w : CmdWord) (v : Nat) (rest : List HostInput),
      s.host = .command w :: rest ∧ decode w = .ok (.wrbitData p v)

/-- "What the hardware would see" is always reconstructable: at reset and, if the trace, replayed from the reset values, gives the
registers, with every report right, then so it does after every step (R32). -/
def Obligations.TraceReconstructsTheRegisters : Prop :=
  (replay (State.reset.data, State.reset.dir) State.reset.trace = some (State.reset.data, State.reset.dir)) ∧
  ∀ s t : State,
    replay (State.reset.data, State.reset.dir) s.trace = some (s.data, s.dir) → step s = .next t →
    replay (State.reset.data, State.reset.dir) t.trace = some (t.data, t.dir)

/-- The outputs are never read: a step that is no reset does the same, and emits the same events, whatever the trace so far
and whatever the last response, which no later command reads (R33, R192). -/
def Obligations.TraceAndResponseAreNeverRead : Prop :=
  ∀ (s t : State) (past : List Event) (last : Option RespWord), s.resetNow = false → step s = .next t →
    ∃ (events : List Event) (t' : State), t.trace = s.trace ++ events ∧
      step { s with trace := past, resp := last } = .next t' ∧ t'.trace = past ++ events ∧
      { t' with trace := t.trace, resp := t.resp } = t ∧ (t'.resp = t.resp ∨ (t.resp = s.resp ∧ t'.resp = last))

/-- BUF is appended to by ENCB only, and emptied only when a session reaches Done and at reset (R25). -/
def Obligations.BufferChangesOnlyByEncbAndDone : Prop :=
  ∀ s t : State, s.resetNow = false → step s = .next t →
    t.buf = s.buf ∨
    (∃ (w : CmdWord) (b : Byte) (rest : List HostInput), s.host = .command w :: rest ∧ decode w = .ok (.encb b) ∧
      t.buf = s.buf ++ byteBits b) ∨
    (s.seq.agent = .sequencer ∧ t.seq = .done ∧ t.buf = [])

/-- The transitions of the protocol (R151). A step of the sequencer takes an edge of the graph of SEQ, so that only I_SETTLE
repeats; the host's turn takes the edge into I_REPORT when the word of SEND is presented and otherwise leaves SEQ; ABORTED is
left by no step but a reset. The protocol state of the source then stays within the positions it stands for, or takes an edge of
the source's state graph. -/
def Obligations.StepsFollowTheStateGraph : Prop :=
  ∀ s t : State, s.resetNow = false → step s = .next t →
    (s.seq.agent = .sequencer → (s.seq, t.seq) ∈ seqEdges) ∧
    (s.seq.agent = .host →
      (∀ rest, s.host = .command 0xA000#16 :: rest → t.seq = .iReport ∧ (s.seq, t.seq) ∈ seqEdges) ∧
      ((∀ rest, s.host ≠ .command 0xA000#16 :: rest) → t.seq = s.seq)) ∧
    (s.seq.agent = .nobody → t.seq = s.seq) ∧
    (t.seq.fsm = s.seq.fsm ∨ (s.seq.fsm, t.seq.fsm) ∈ fsmEdges)

/-- A SEND that the host issues runs the whole session of R165, and leaves the host's later commands waiting (R165, R81). -/
def Obligations.IssuedSendRunsTheWholeSession : Prop :=
  ∀ (s : State) (rest : List HostInput), s.ready = true → s.host = .command 0xA000#16 :: rest → onlyCommands rest = true →
    ∃ k, Host.Core.run core k s = .next (session Config.block { s with host := rest })

/-- The pseudo-command SENDBYTES, issued to a ready block, encodes its bytes in order and then runs one session over them
(R80). -/
def Obligations.SendbytesRunsEndToEnd : Prop :=
  ∀ (s : State) (bytes : List Byte), s.ready = true → s.host = presented (expand (.sendbytes bytes)) →
    ∃ k, Host.Core.run core k s =
      .next (session Config.block (encodeBytes Config.block.bufCap bytes { s with host := [] }))

/-- The expansions of the three pseudo-commands (R80). -/
def Obligations.PseudoCommandsExpand : Prop :=
  (∀ bytes : List Byte, expand (.sendbytes bytes) = bytes.map Instr.encb ++ [Instr.send]) ∧
  (∀ p : Nat, expand (.output p) = [.cfgdir p 1] ∧ expand (.input p) = [.cfgdir p 0])

/-- A snapshot is shown as two strings of exactly 8 characters, most significant bit first (R191). The last clause, on
`renderLines`, is no claim about the hardware: the labels and the one string per line are the choice the model makes of text (log
12, DESIGN CHOICE; decision D21 of the spec), and N14 says that no claim may rest on them. -/
def Obligations.RenderedFormIsMostSignificantFirst : Prop :=
  ∀ (d r : Byte), (bitString d).length = 8 ∧ (bitString r).length = 8 ∧
    (∀ k, k < 8 → (bitString d)[k]? = some (if d.getLsbD (7 - k) then '1' else '0') ∧
      (bitString r)[k]? = some (if r.getLsbD (7 - k) then '1' else '0')) ∧
    renderLines d r = ["PORTB ".toList ++ bitString d, "DDRDB ".toList ++ bitString r]

/-- The assembler form (R79), with the operands of each command written in decimal or in `0x` hexadecimal:
a well-formed command as it is written assembles to exactly that command; a PIN above 15 or a VAL above 255 is refused;
OUTPUT, INPUT and SENDBYTES assemble to their expansions (R80) or are refused for such an operand; a program, one command a line,
assembles to its command words in order; and whatever text a line has, it gives encodable commands only, whose words decode to
them. That a space follows each comma, and what else a line may hold, is log 11. -/
def Obligations.AssembledLinesAreEncodable : Prop :=
  (∀ (pinHex valHex : Bool) (i : Instr),
    assembleLine? (commandText pinHex valHex i) = if i.wellFormed then some [i] else none) ∧
  (∀ (hex : Bool) (n : Nat), 255 < n → assembleLine? (lineText "ENCB" [numeralText hex n]) = none) ∧
  (∀ (hex : Bool) (p : Nat),
    assembleLine? (lineText "OUTPUT" [numeralText hex p]) = (if p < 16 then some [.cfgdir p 1] else none) ∧
    assembleLine? (lineText "INPUT" [numeralText hex p]) = (if p < 16 then some [.cfgdir p 0] else none)) ∧
  (∀ (hex : Bool) (ns : List Nat), ns ≠ [] →
    assembleLine? (lineText "SENDBYTES" (ns.map (numeralText hex))) =
      if ∀ n ∈ ns, n < 256 then some (ns.map (fun n => Instr.encb (BitVec.ofNat 8 n)) ++ [.send]) else none) ∧
  (∀ (pinHex valHex : Bool) (program : List Instr), (∀ i ∈ program, i.wellFormed = true) →
    assemble? (program.map (commandText pinHex valHex)) = some (program.map encode)) ∧
  (∀ (line : List Char) (cmds : List Instr), assembleLine? line = some cmds →
    ∀ i ∈ cmds, i.wellFormed = true ∧ decode (encode i) = .ok i)
end

