-- ==== Sys2Proof/Laws/Assembler.lean ====
section
/-! SUPPORT. The assembler form read back: what is written of a numeral, of operands and of a line is what the reader takes from
it. A proof about a line cites these and unfolds neither the writer nor the reader. -/

namespace Sys2Proof.Machine

/-! ### Numerals -/

theorem decDigit?_digitChar : ∀ d : Fin 10, decDigit? (Nat.digitChar d.val) = some d.val := by decide

theorem hexDigit?_digitChar : ∀ d : Fin 16, hexDigit? (Nat.digitChar d.val) = some d.val := by decide

/-- Digits read one after the other. -/
theorem digitsFrom_append (base : Nat) (digit? : Char → Option Nat) (cs ds : List Char) (v : Nat) :
    digitsFrom base digit? v (cs ++ ds) = (digitsFrom base digit? v cs).bind fun v' => digitsFrom base digit? v' ds := by
  induction cs generalizing v with
  | nil => rfl
  | cons c cs ih =>
    simp only [List.cons_append, digitsFrom]
    cases digit? c with
    | none => rfl
    | some d => exact ih _

/-- The digits of a number in a base read back as the number. -/
theorem digitsFrom_toDigits (base : Nat) (digit? : Char → Option Nat) (hb : 1 < base)
    (hd : ∀ d, d < base → digit? (Nat.digitChar d) = some d) (n : Nat) :
    digitsFrom base digit? 0 (Nat.toDigits base n) = some n := by
  induction n using Nat.strongRecOn with
  | ind n ih =>
    rcases Nat.lt_or_ge n base with h | h
    · rw [Nat.toDigits_of_lt_base h]
      simp [digitsFrom, hd n h]
    · rw [Nat.toDigits_of_base_le hb h, digitsFrom_append, ih _ (Nat.div_lt_self (by omega) hb)]
      simp [digitsFrom, hd _ (Nat.mod_lt n (by omega)), Nat.div_add_mod]

/-- Every character of a written number is a digit. -/
theorem mem_toDigits {base : Nat} (hb : 1 < base) {n : Nat} {c : Char} (h : c ∈ Nat.toDigits base n) :
    ∃ d, d < base ∧ c = Nat.digitChar d := by
  induction n using Nat.strongRecOn with
  | ind n ih =>
    rcases Nat.lt_or_ge n base with hn | hn
    · rw [Nat.toDigits_of_lt_base hn] at h
      exact ⟨n, hn, List.mem_singleton.1 h⟩
    · rw [Nat.toDigits_of_base_le hb hn, List.mem_append] at h
      rcases h with h | h
      · exact ih _ (Nat.div_lt_self (by omega) hb) h
      · exact ⟨_, Nat.mod_lt n (by omega), List.mem_singleton.1 h⟩

/-- A text with no space and no comma in it, and not empty: a mnemonic, or one operand. -/
abbrev IsToken (cs : List Char) : Prop := cs ≠ [] ∧ ∀ c ∈ cs, c ≠ ' ' ∧ c ≠ ','

theorem digitChar_ne : ∀ d : Fin 16,
    Nat.digitChar d.val ≠ ' ' ∧ Nat.digitChar d.val ≠ ',' ∧ Nat.digitChar d.val ≠ 'x' := by decide

theorem isToken_toDigits {base : Nat} (hb : 1 < base) (hb' : base ≤ 16) (n : Nat) : IsToken (Nat.toDigits base n) := by
  refine ⟨Nat.toDigits_ne_nil, fun c hc => ?_⟩
  obtain ⟨d, hd, rfl⟩ := mem_toDigits hb hc
  have h := digitChar_ne ⟨d, by omega⟩
  exact ⟨h.1, h.2.1⟩

/-- A written numeral is one token. -/
theorem isToken_numeralText (hex : Bool) (n : Nat) : IsToken (numeralText hex n) := by
  unfold numeralText
  cases hex
  · exact isToken_toDigits (by omega) (by omega) n
  · have h := isToken_toDigits (base := 16) (by omega) (by omega) n
    simp only [if_true]
    refine ⟨by simp, ?_⟩
    simp only [List.mem_cons]
    rintro c (rfl | rfl | hc)
    · decide
    · decide
    · exact h.2 c hc

/-- A written numeral reads back as its number, in either base. -/
theorem numeral?_numeralText (hex : Bool) (n : Nat) : numeral? (numeralText hex n) = some n := by
  unfold numeralText
  cases hex
  · have hx : ∀ cs, Nat.toDigits 10 n ≠ '0' :: 'x' :: cs := by
      intro cs h
      obtain ⟨d, hd, he⟩ := mem_toDigits (base := 10) (n := n) (c := 'x') (by omega) (by rw [h]; simp)
      exact (digitChar_ne ⟨d, by omega⟩).2.2 he.symm
    have hr := digitsFrom_toDigits 10 decDigit? (by omega) (fun d hd => decDigit?_digitChar ⟨d, hd⟩) n
    simp only [Bool.false_eq_true, if_false]
    unfold numeral?
    split
    · rename_i h; exact absurd h Nat.toDigits_ne_nil
    · rename_i h; exact absurd h (hx _)
    · rename_i h; exact absurd h (hx _)
    · exact hr
  · have hr := digitsFrom_toDigits 16 hexDigit? (by omega) (fun d hd => hexDigit?_digitChar ⟨d, hd⟩) n
    simp only [if_true]
    unfold numeral?
    split
    · rename_i h; cases h
    · rename_i h; simp at h
    · rename_i h; simp only [List.cons.injEq, true_and] at h; rw [← h]; exact hr
    · rename_i h; simp at h

/-! ### Spaces and commas -/

theorem dropWhile_space {cs : List Char} (h : cs.head? ≠ some ' ') : cs.dropWhile (· == ' ') = cs := by
  cases cs with
  | nil => rfl
  | cons c cs =>
    have : c ≠ ' ' := by simpa using h
    simp [this]

/-- Nothing is taken from a text that has no space at either end. -/
theorem trim_eq_self {cs : List Char} (h : cs.head? ≠ some ' ') (h' : cs.getLast? ≠ some ' ') : trim cs = cs := by
  unfold trim
  rw [dropWhile_space h, dropWhile_space (by rwa [List.head?_reverse]), List.reverse_reverse]

@[simp] theorem trim_cons_space (cs : List Char) : trim (' ' :: cs) = trim cs := by simp [trim]

theorem IsToken.head? {cs : List Char} (h : IsToken cs) : cs.head? ≠ some ' ' :=
  fun e => (h.2 _ (List.mem_of_head? e)).1 rfl

theorem IsToken.getLast? {cs : List Char} (h : IsToken cs) : cs.getLast? ≠ some ' ' :=
  fun e => (h.2 _ (List.mem_of_getLast? e)).1 rfl

theorem IsToken.trim {cs : List Char} (h : IsToken cs) : trim cs = cs := trim_eq_self h.head? h.getLast?

theorem splitCommas_ne_nil (cs : List Char) : splitCommas cs ≠ [] := by
  cases cs with
  | nil => decide
  | cons c cs =>
    unfold splitCommas
    rw [List.foldr_cons]
    split
    · simp
    · split <;> simp

theorem splitCommas_comma (cs : List Char) : splitCommas (',' :: cs) = [] :: splitCommas cs := by
  have h := splitCommas_ne_nil cs
  unfold splitCommas at h ⊢
  rw [List.foldr_cons]
  split
  · contradiction
  · rename_i e
    rw [e]
    rfl

/-- What stands before the first comma belongs to the first part. -/
theorem splitCommas_append {cs : List Char} (h : ∀ c ∈ cs, c ≠ ',') {ds part : List Char} {parts : List (List Char)}
    (hd : splitCommas ds = part :: parts) : splitCommas (cs ++ ds) = (cs ++ part) :: parts := by
  induction cs with
  | nil => exact hd
  | cons c cs ih =>
    have hc : c ≠ ',' := h c (by simp)
    have ih := ih fun c hc => h c (by simp [hc])
    unfold splitCommas at ih ⊢
    rw [List.cons_append, List.foldr_cons, ih]
    simp [hc]

/-! ### Operands and lines -/

/-- The mnemonic of a command is one token (R79). -/
theorem isToken_mnemonic (i : Instr) : IsToken i.mnemonic.toList := by
  cases i <;> simp [IsToken, Instr.mnemonic]

/-- The parts of written operands: the first as it is, each later one after a space. -/
theorem splitCommas_operandsText {op : List Char} {ops : List (List Char)} (h : ∀ t ∈ op :: ops, IsToken t) :
    splitCommas (operandsText (op :: ops)) = op :: ops.map (' ' :: ·) := by
  induction ops generalizing op with
  | nil =>
    have := splitCommas_append (cs := op) (fun c hc => ((h op (by simp)).2 c hc).2) (ds := []) rfl
    simpa [operandsText] using this
  | cons op' ops ih =>
    have ih := ih (op := op') fun t ht => h t (List.mem_cons_of_mem _ ht)
    have hs : splitCommas (' ' :: operandsText (op' :: ops)) = (' ' :: op') :: ops.map (' ' :: ·) :=
      splitCommas_append (cs := [' ']) (by simp) ih
    have := splitCommas_append (cs := op) (fun c hc => ((h op (by simp)).2 c hc).2)
      (ds := ',' :: ' ' :: operandsText (op' :: ops)) (by rw [splitCommas_comma, hs])
    simpa [operandsText] using this

theorem operandsText_head? {op : List Char} {ops : List (List Char)} (h : ∀ t ∈ op :: ops, IsToken t) :
    (operandsText (op :: ops)).head? ≠ some ' ' ∧ operandsText (op :: ops) ≠ [] := by
  have h0 := h op (by simp)
  cases ops with
  | nil => exact ⟨h0.head?, h0.1⟩
  | cons op' ops =>
    obtain ⟨c, cs, rfl⟩ := List.exists_cons_of_ne_nil h0.1
    have := h0.head?
    simpa [operandsText] using this

theorem operandsText_getLast? {op : List Char} {ops : List (List Char)} (h : ∀ t ∈ op :: ops, IsToken t) :
    (operandsText (op :: ops)).getLast? ≠ some ' ' := by
  induction ops generalizing op with
  | nil => exact (h op (by simp)).getLast?
  | cons op' ops ih =>
    have ih := ih (op := op') fun t ht => h t (List.mem_cons_of_mem _ ht)
    have hn := (operandsText_head? (op := op') (ops := ops) fun t ht => h t (List.mem_cons_of_mem _ ht)).2
    obtain ⟨c, cs, e⟩ := List.exists_cons_of_ne_nil hn
    simp only [operandsText]
    rw [e] at ih ⊢
    simpa [List.getLast?_append, List.getLast?_cons_cons] using ih

/-- Written numerals read back as the list of their numbers. -/
theorem operands?_space_operandsText {n : Nat} {hex : Bool} {ops : List (Bool × Nat)} :
    operands? (' ' :: operandsText (((hex, n) :: ops).map fun o => numeralText o.1 o.2)) =
      some (n :: ops.map Prod.snd) := by
  have ht : ∀ t ∈ ((hex, n) :: ops).map (fun o => numeralText o.1 o.2), IsToken t := by
    intro t h
    obtain ⟨o, _, rfl⟩ := List.mem_map.1 h
    exact isToken_numeralText _ _
  rw [List.map_cons] at ht ⊢
  have hne : trim (' ' :: operandsText (numeralText hex n :: ops.map fun o => numeralText o.1 o.2)) ≠ [] := by
    rw [trim_cons_space, trim_eq_self (operandsText_head? ht).1 (operandsText_getLast? ht)]
    exact (operandsText_head? ht).2
  have hs := splitCommas_append (cs := [' ']) (by simp) (splitCommas_operandsText ht)
  unfold operands?
  rw [if_neg hne]
  rw [List.singleton_append] at hs
  rw [hs, List.mapM_cons]
  have hl : ∀ l : List (Bool × Nat), List.mapM (fun part => numeral? (trim part))
      ((l.map fun o => numeralText o.1 o.2).map (' ' :: ·)) = some (l.map Prod.snd) := by
    intro l
    induction l with
    | nil => rfl
    | cons o l ih =>
      simp only [List.map_cons, List.mapM_cons, trim_cons_space, (isToken_numeralText _ _).trim, numeral?_numeralText, ih]
      rfl
  rw [hl]
  simp only [List.singleton_append, trim_cons_space, (isToken_numeralText _ _).trim, numeral?_numeralText]
  rfl

/-- A written line is read as its mnemonic with the numbers of its operands. -/
theorem assembleLine?_lineText (mnemonic : String) (hm : IsToken mnemonic.toList) (ops : List (Bool × Nat)) :
    assembleLine? (lineText mnemonic (ops.map fun o => numeralText o.1 o.2)) = lineCommands? mnemonic (ops.map Prod.snd) := by
  have htok : ∀ c ∈ mnemonic.toList, (c != ' ') = true := fun c hc => by simpa using (hm.2 c hc).1
  unfold assembleLine?
  cases ops with
  | nil =>
    have ht : ∀ cs : List Char, (∀ c ∈ cs, (c != ' ') = true) → cs.dropWhile (· != ' ') = [] ∧ cs.takeWhile (· != ' ') = cs := by
      intro cs h
      exact ⟨by simpa [List.dropWhile_eq_nil_iff] using h, by simpa [List.takeWhile_eq_self_iff] using h⟩
    simp only [List.map_nil, lineText, hm.trim, (ht _ htok).1, (ht _ htok).2, String.ofList_toList]
    rfl
  | cons o ops =>
    obtain ⟨hex, n⟩ := o
    have ht : ∀ t ∈ ((hex, n) :: ops).map (fun o => numeralText o.1 o.2), IsToken t := by
      intro t h
      obtain ⟨o, _, rfl⟩ := List.mem_map.1 h
      exact isToken_numeralText _ _
    have hop := operands?_space_operandsText (n := n) (hex := hex) (ops := ops)
    rw [List.map_cons] at ht hop
    have hl : lineText mnemonic (((hex, n) :: ops).map fun o => numeralText o.1 o.2) =
        mnemonic.toList ++ ' ' :: operandsText (numeralText hex n :: ops.map fun o => numeralText o.1 o.2) := rfl
    have htrim : trim (mnemonic.toList ++ ' ' :: operandsText (numeralText hex n :: ops.map fun o => numeralText o.1 o.2)) =
        mnemonic.toList ++ ' ' :: operandsText (numeralText hex n :: ops.map fun o => numeralText o.1 o.2) := by
      apply trim_eq_self
      · obtain ⟨c, cs, e⟩ := List.exists_cons_of_ne_nil hm.1
        have := hm.head?
        rw [e] at this ⊢
        simpa using this
      · have := operandsText_getLast? ht
        obtain ⟨c, cs, e⟩ := List.exists_cons_of_ne_nil (operandsText_head? ht).2
        rw [e] at this ⊢
        simpa [List.getLast?_append, List.getLast?_cons_cons] using this
    rw [hl, htrim]
    dsimp only
    rw [List.dropWhile_append_of_pos htok, List.takeWhile_append_of_pos htok]
    simp only [bne_self_eq_false, Bool.false_eq_true, not_false_eq_true, List.dropWhile_cons_of_neg,
      List.takeWhile_cons_of_neg, List.append_nil, String.ofList_toList, hop]
    rfl

end Sys2Proof.Machine
end

