-- ==== Sys2Proof/Laws/State.lean ====
section
/-! SUPPORT. One lemma per field per update of State, true by unfolding the update once, so that no later proof unfolds a
record update. -/

namespace Sys2Proof.Machine

section Updates

variable (s : State)

/-! ### `emit` -/

@[simp] theorem State.emit_data (e : Event) : (s.emit e).data = s.data := rfl
@[simp] theorem State.emit_dir (e : Event) : (s.emit e).dir = s.dir := rfl
@[simp] theorem State.emit_buf (e : Event) : (s.emit e).buf = s.buf := rfl
@[simp] theorem State.emit_seq (e : Event) : (s.emit e).seq = s.seq := rfl
@[simp] theorem State.emit_idx (e : Event) : (s.emit e).idx = s.idx := rfl
@[simp] theorem State.emit_settleCnt (e : Event) : (s.emit e).settleCnt = s.settleCnt := rfl
@[simp] theorem State.emit_abortCode (e : Event) : (s.emit e).abortCode = s.abortCode := rfl
@[simp] theorem State.emit_trace (e : Event) : (s.emit e).trace = s.trace ++ [e] := rfl
@[simp] theorem State.emit_resp (e : Event) : (s.emit e).resp = s.resp := rfl
@[simp] theorem State.emit_host (e : Event) : (s.emit e).host = s.host := rfl
@[simp] theorem State.emit_outputs (e : Event) (role : Byte) : (s.emit e).outputs role = s.outputs role := rfl

/-! ### `report` -/

@[simp] theorem State.report_data : (s.report).data = s.data := rfl
@[simp] theorem State.report_dir : (s.report).dir = s.dir := rfl
@[simp] theorem State.report_buf : (s.report).buf = s.buf := rfl
@[simp] theorem State.report_seq : (s.report).seq = s.seq := rfl
@[simp] theorem State.report_idx : (s.report).idx = s.idx := rfl
@[simp] theorem State.report_settleCnt : (s.report).settleCnt = s.settleCnt := rfl
@[simp] theorem State.report_abortCode : (s.report).abortCode = s.abortCode := rfl
@[simp] theorem State.report_trace : (s.report).trace = s.trace ++ [.report s.data s.dir] := rfl
@[simp] theorem State.report_resp : (s.report).resp = s.resp := rfl
@[simp] theorem State.report_host : (s.report).host = s.host := rfl
@[simp] theorem State.report_outputs (role : Byte) : (s.report).outputs role = s.outputs role := rfl

/-! ### `tick` -/

@[simp] theorem State.tick_data : (s.tick).data = s.data := rfl
@[simp] theorem State.tick_dir : (s.tick).dir = s.dir := rfl
@[simp] theorem State.tick_buf : (s.tick).buf = s.buf := rfl
@[simp] theorem State.tick_seq : (s.tick).seq = s.seq := rfl
@[simp] theorem State.tick_idx : (s.tick).idx = s.idx := rfl
@[simp] theorem State.tick_settleCnt : (s.tick).settleCnt = s.settleCnt := rfl
@[simp] theorem State.tick_abortCode : (s.tick).abortCode = s.abortCode := rfl
@[simp] theorem State.tick_trace : (s.tick).trace = s.trace ++ [.tick] := rfl
@[simp] theorem State.tick_resp : (s.tick).resp = s.resp := rfl
@[simp] theorem State.tick_host : (s.tick).host = s.host := rfl
@[simp] theorem State.tick_outputs (role : Byte) : (s.tick).outputs role = s.outputs role := rfl

/-! ### `goto` -/

@[simp] theorem State.goto_data (p : SeqPos) : (s.goto p).data = s.data := rfl
@[simp] theorem State.goto_dir (p : SeqPos) : (s.goto p).dir = s.dir := rfl
@[simp] theorem State.goto_buf (p : SeqPos) : (s.goto p).buf = s.buf := rfl
@[simp] theorem State.goto_seq (p : SeqPos) : (s.goto p).seq = p := rfl
@[simp] theorem State.goto_idx (p : SeqPos) : (s.goto p).idx = s.idx := rfl
@[simp] theorem State.goto_settleCnt (p : SeqPos) : (s.goto p).settleCnt = s.settleCnt := rfl
@[simp] theorem State.goto_abortCode (p : SeqPos) : (s.goto p).abortCode = s.abortCode := rfl
@[simp] theorem State.goto_trace (p : SeqPos) : (s.goto p).trace = s.trace := rfl
@[simp] theorem State.goto_resp (p : SeqPos) : (s.goto p).resp = s.resp := rfl
@[simp] theorem State.goto_host (p : SeqPos) : (s.goto p).host = s.host := rfl
@[simp] theorem State.goto_outputs (p : SeqPos) (role : Byte) : (s.goto p).outputs role = s.outputs role := rfl

/-! ### `respond` -/

@[simp] theorem State.respond_data (st : Status) (d : BitVec 16) : (s.respond st d).data = s.data := rfl
@[simp] theorem State.respond_dir (st : Status) (d : BitVec 16) : (s.respond st d).dir = s.dir := rfl
@[simp] theorem State.respond_buf (st : Status) (d : BitVec 16) : (s.respond st d).buf = s.buf := rfl
@[simp] theorem State.respond_seq (st : Status) (d : BitVec 16) : (s.respond st d).seq = s.seq := rfl
@[simp] theorem State.respond_idx (st : Status) (d : BitVec 16) : (s.respond st d).idx = s.idx := rfl
@[simp] theorem State.respond_settleCnt (st : Status) (d : BitVec 16) : (s.respond st d).settleCnt = s.settleCnt := rfl
@[simp] theorem State.respond_abortCode (st : Status) (d : BitVec 16) : (s.respond st d).abortCode = s.abortCode := rfl
@[simp] theorem State.respond_trace (st : Status) (d : BitVec 16) : (s.respond st d).trace = s.trace := rfl
@[simp] theorem State.respond_resp (st : Status) (d : BitVec 16) : (s.respond st d).resp = some (respWord st d) := rfl
@[simp] theorem State.respond_host (st : Status) (d : BitVec 16) : (s.respond st d).host = s.host := rfl
@[simp] theorem State.respond_outputs (st : Status) (d : BitVec 16) (role : Byte) : (s.respond st d).outputs role = s.outputs role := rfl

/-! ### `abort` -/

@[simp] theorem State.abort_data (e : Status) : (s.abort e).data = s.data := rfl
@[simp] theorem State.abort_dir (e : Status) : (s.abort e).dir = s.dir := rfl
@[simp] theorem State.abort_buf (e : Status) : (s.abort e).buf = s.buf := rfl
@[simp] theorem State.abort_seq (e : Status) : (s.abort e).seq = .aborted := rfl
@[simp] theorem State.abort_idx (e : Status) : (s.abort e).idx = s.idx := rfl
@[simp] theorem State.abort_settleCnt (e : Status) : (s.abort e).settleCnt = s.settleCnt := rfl
@[simp] theorem State.abort_abortCode (e : Status) : (s.abort e).abortCode = e := rfl
@[simp] theorem State.abort_trace (e : Status) : (s.abort e).trace = s.trace := rfl
@[simp] theorem State.abort_resp (e : Status) : (s.abort e).resp = some (respWord e 0#16) := rfl
@[simp] theorem State.abort_host (e : Status) : (s.abort e).host = s.host := rfl
@[simp] theorem State.abort_outputs (e : Status) (role : Byte) : (s.abort e).outputs role = s.outputs role := rfl

/-! ### `finish` -/

@[simp] theorem State.finish_data : (s.finish).data = s.data := rfl
@[simp] theorem State.finish_dir : (s.finish).dir = s.dir := rfl
@[simp] theorem State.finish_buf : (s.finish).buf = [] := rfl
@[simp] theorem State.finish_seq : (s.finish).seq = .done := rfl
@[simp] theorem State.finish_idx : (s.finish).idx = 0 := rfl
@[simp] theorem State.finish_settleCnt : (s.finish).settleCnt = s.settleCnt := rfl
@[simp] theorem State.finish_abortCode : (s.finish).abortCode = s.abortCode := rfl
@[simp] theorem State.finish_trace : (s.finish).trace = s.trace := rfl
@[simp] theorem State.finish_resp : (s.finish).resp = some (respWord .ok 0#16) := rfl
@[simp] theorem State.finish_host : (s.finish).host = s.host := rfl
@[simp] theorem State.finish_outputs (role : Byte) : (s.finish).outputs role = s.outputs role := rfl

/-! ### `startSession` -/

@[simp] theorem State.startSession_data (c : Config) : (s.startSession c).data = s.data := rfl
@[simp] theorem State.startSession_dir (c : Config) : (s.startSession c).dir = s.dir := rfl
@[simp] theorem State.startSession_buf (c : Config) : (s.startSession c).buf = s.buf := rfl
@[simp] theorem State.startSession_seq (c : Config) : (s.startSession c).seq = .iReport := rfl
@[simp] theorem State.startSession_idx (c : Config) : (s.startSession c).idx = 0 := rfl
@[simp] theorem State.startSession_settleCnt (c : Config) : (s.startSession c).settleCnt = c.settleTicks := rfl
@[simp] theorem State.startSession_abortCode (c : Config) : (s.startSession c).abortCode = .ok := rfl
@[simp] theorem State.startSession_trace (c : Config) : (s.startSession c).trace = s.trace := rfl
@[simp] theorem State.startSession_resp (c : Config) : (s.startSession c).resp = none := rfl
@[simp] theorem State.startSession_host (c : Config) : (s.startSession c).host = s.host := rfl
@[simp] theorem State.startSession_outputs (c : Config) (role : Byte) : (s.startSession c).outputs role = s.outputs role := rfl

/-! ### `withHost` -/

@[simp] theorem State.withHost_data (h : List HostInput) : (s.withHost h).data = s.data := rfl
@[simp] theorem State.withHost_dir (h : List HostInput) : (s.withHost h).dir = s.dir := rfl
@[simp] theorem State.withHost_buf (h : List HostInput) : (s.withHost h).buf = s.buf := rfl
@[simp] theorem State.withHost_seq (h : List HostInput) : (s.withHost h).seq = s.seq := rfl
@[simp] theorem State.withHost_idx (h : List HostInput) : (s.withHost h).idx = s.idx := rfl
@[simp] theorem State.withHost_settleCnt (h : List HostInput) : (s.withHost h).settleCnt = s.settleCnt := rfl
@[simp] theorem State.withHost_abortCode (h : List HostInput) : (s.withHost h).abortCode = s.abortCode := rfl
@[simp] theorem State.withHost_trace (h : List HostInput) : (s.withHost h).trace = s.trace := rfl
@[simp] theorem State.withHost_resp (h : List HostInput) : (s.withHost h).resp = s.resp := rfl
@[simp] theorem State.withHost_host (h : List HostInput) : (s.withHost h).host = h := rfl
@[simp] theorem State.withHost_outputs (h : List HostInput) (role : Byte) : (s.withHost h).outputs role = s.outputs role := rfl

/-! ### `settleWait` -/

@[simp] theorem State.settleWait_data (n : Nat) : (settleWait s n).data = s.data := rfl
@[simp] theorem State.settleWait_dir (n : Nat) : (settleWait s n).dir = s.dir := rfl
@[simp] theorem State.settleWait_buf (n : Nat) : (settleWait s n).buf = s.buf := rfl
@[simp] theorem State.settleWait_seq (n : Nat) : (settleWait s n).seq = s.seq := rfl
@[simp] theorem State.settleWait_idx (n : Nat) : (settleWait s n).idx = s.idx := rfl
@[simp] theorem State.settleWait_settleCnt (n : Nat) : (settleWait s n).settleCnt = 0 := rfl
@[simp] theorem State.settleWait_abortCode (n : Nat) : (settleWait s n).abortCode = s.abortCode := rfl
@[simp] theorem State.settleWait_trace (n : Nat) : (settleWait s n).trace = s.trace ++ List.replicate n Event.tick := rfl
@[simp] theorem State.settleWait_resp (n : Nat) : (settleWait s n).resp = s.resp := rfl
@[simp] theorem State.settleWait_host (n : Nat) : (settleWait s n).host = s.host := rfl
@[simp] theorem State.settleWait_outputs (n : Nat) (role : Byte) : (settleWait s n).outputs role = s.outputs role := rfl

/-! ### `setReg` and `putBit`: one register at a time -/

@[simp] theorem State.setReg_data_data (v : Byte) : (s.setReg .data v).data = v := rfl
@[simp] theorem State.setReg_dir_dir (v : Byte) : (s.setReg .dir v).dir = v := rfl
@[simp] theorem State.setReg_dir_data (v : Byte) : (s.setReg .dir v).data = s.data := rfl
@[simp] theorem State.setReg_data_dir (v : Byte) : (s.setReg .data v).dir = s.dir := rfl
@[simp] theorem State.setReg_buf (r : Reg) (v : Byte) : (s.setReg r v).buf = s.buf := by cases r <;> rfl
@[simp] theorem State.setReg_seq (r : Reg) (v : Byte) : (s.setReg r v).seq = s.seq := by cases r <;> rfl
@[simp] theorem State.setReg_idx (r : Reg) (v : Byte) : (s.setReg r v).idx = s.idx := by cases r <;> rfl
@[simp] theorem State.setReg_settleCnt (r : Reg) (v : Byte) : (s.setReg r v).settleCnt = s.settleCnt := by cases r <;> rfl
@[simp] theorem State.setReg_abortCode (r : Reg) (v : Byte) : (s.setReg r v).abortCode = s.abortCode := by cases r <;> rfl
@[simp] theorem State.setReg_trace (r : Reg) (v : Byte) : (s.setReg r v).trace = s.trace := by cases r <;> rfl
@[simp] theorem State.setReg_resp (r : Reg) (v : Byte) : (s.setReg r v).resp = s.resp := by cases r <;> rfl
@[simp] theorem State.setReg_host (r : Reg) (v : Byte) : (s.setReg r v).host = s.host := by cases r <;> rfl

@[simp] theorem State.putBit_data_data (p : Fin 8) (v : Bit) :
    (s.putBit .data p v).data = if v = 0#1 then s.data &&& ~~~pinMask p else s.data ||| pinMask p := rfl
@[simp] theorem State.putBit_dir_dir (p : Fin 8) (v : Bit) :
    (s.putBit .dir p v).dir = if v = 0#1 then s.dir &&& ~~~pinMask p else s.dir ||| pinMask p := rfl
@[simp] theorem State.putBit_dir_data (p : Fin 8) (v : Bit) : (s.putBit .dir p v).data = s.data := rfl
@[simp] theorem State.putBit_data_dir (p : Fin 8) (v : Bit) : (s.putBit .data p v).dir = s.dir := rfl
@[simp] theorem State.putBit_trace (r : Reg) (p : Fin 8) (v : Bit) :
    (s.putBit r p v).trace = s.trace ++ [.write r p v] := by cases r <;> rfl
@[simp] theorem State.putBit_buf (r : Reg) (p : Fin 8) (v : Bit) : (s.putBit r p v).buf = s.buf := by
  cases r <;> rfl
@[simp] theorem State.putBit_seq (r : Reg) (p : Fin 8) (v : Bit) : (s.putBit r p v).seq = s.seq := by
  cases r <;> rfl
@[simp] theorem State.putBit_idx (r : Reg) (p : Fin 8) (v : Bit) : (s.putBit r p v).idx = s.idx := by
  cases r <;> rfl
@[simp] theorem State.putBit_settleCnt (r : Reg) (p : Fin 8) (v : Bit) : (s.putBit r p v).settleCnt = s.settleCnt := by
  cases r <;> rfl
@[simp] theorem State.putBit_abortCode (r : Reg) (p : Fin 8) (v : Bit) : (s.putBit r p v).abortCode = s.abortCode := by
  cases r <;> rfl
@[simp] theorem State.putBit_resp (r : Reg) (p : Fin 8) (v : Bit) : (s.putBit r p v).resp = s.resp := by
  cases r <;> rfl
@[simp] theorem State.putBit_host (r : Reg) (p : Fin 8) (v : Bit) : (s.putBit r p v).host = s.host := by
  cases r <;> rfl

/-! ### `outputs`: it reads DIR alone -/

theorem State.outputs_congr {t : State} (h : t.dir = s.dir) (role : Byte) : t.outputs role = s.outputs role := by
  unfold State.outputs
  rw [h]

@[simp] theorem State.putBit_data_outputs (p : Fin 8) (v : Bit) (role : Byte) :
    (s.putBit .data p v).outputs role = s.outputs role := rfl

/-! ### `reg`, and the derived outputs -/

@[simp] theorem State.reg_data : s.reg .data = s.data := rfl
@[simp] theorem State.reg_dir : s.reg .dir = s.dir := rfl
@[simp] theorem State.padOut_eq : s.padOut = s.data := rfl
@[simp] theorem State.padOe_eq : s.padOe = s.dir := rfl

@[simp] theorem State.setReg_reg_same (r : Reg) (v : Byte) : (s.setReg r v).reg r = v := by cases r <;> rfl

theorem State.setReg_reg_other {r q : Reg} (h : q ≠ r) (v : Byte) : (s.setReg r v).reg q = s.reg q := by
  cases r <;> cases q <;> first | rfl | exact absurd rfl h

/-- The block is ready exactly at IDLE and DONE. -/
theorem State.ready_iff : s.ready = true ↔ s.seq = .idle ∨ s.seq = .done := by
  unfold State.ready
  cases h : s.seq <;> simp [SeqPos.agent]

/-- The block is ready exactly where the host has a step. -/
theorem State.ready_iff_agent : s.ready = true ↔ s.seq.agent = .host := by
  unfold State.ready
  cases h : s.seq.agent <;> simp

/-! ### `dispatch` and `countdown` -/

@[simp] theorem State.dispatch_data (i : Nat) : (s.dispatch i).data = s.data := by
  unfold State.dispatch; dsimp only; split <;> [rfl; (split <;> rfl)]
@[simp] theorem State.dispatch_dir (i : Nat) : (s.dispatch i).dir = s.dir := by
  unfold State.dispatch; dsimp only; split <;> [rfl; (split <;> rfl)]
@[simp] theorem State.dispatch_trace (i : Nat) : (s.dispatch i).trace = s.trace := by
  unfold State.dispatch; dsimp only; split <;> [rfl; (split <;> rfl)]
@[simp] theorem State.dispatch_settleCnt (i : Nat) : (s.dispatch i).settleCnt = s.settleCnt := by
  unfold State.dispatch; dsimp only; split <;> [rfl; (split <;> rfl)]
@[simp] theorem State.dispatch_abortCode (i : Nat) : (s.dispatch i).abortCode = s.abortCode := by
  unfold State.dispatch; dsimp only; split <;> [rfl; (split <;> rfl)]
@[simp] theorem State.dispatch_host (i : Nat) : (s.dispatch i).host = s.host := by
  unfold State.dispatch; dsimp only; split <;> [rfl; (split <;> rfl)]

/-- What `dispatch` can do: end the session, or go on to the acknowledgment or to the bit (R152). -/
theorem State.dispatch_cases (i : Nat) :
    (s.buf.length ≤ i ∧ s.dispatch i = s.finish) ∨
    (i < s.buf.length ∧ i % 8 = 0 ∧ s.dispatch i = { s with idx := i, seq := .aToggle }) ∨
    (i < s.buf.length ∧ i % 8 ≠ 0 ∧ s.dispatch i = { s with idx := i, seq := .tData }) := by
  unfold State.dispatch
  dsimp only
  split
  · exact .inl ⟨‹_›, rfl⟩
  · split
    · exact .inr (.inl ⟨by omega, ‹_›, rfl⟩)
    · exact .inr (.inr ⟨by omega, ‹_›, rfl⟩)

/-- A step that goes by touches nothing but the outside's inputs. -/
theorem State.countdown_eq : s.countdown = s.withHost s.countdown.host := by
  unfold State.countdown
  split <;> rfl

@[simp] theorem State.countdown_data : s.countdown.data = s.data := by rw [s.countdown_eq]; rfl
@[simp] theorem State.countdown_dir : s.countdown.dir = s.dir := by rw [s.countdown_eq]; rfl
@[simp] theorem State.countdown_buf : s.countdown.buf = s.buf := by rw [s.countdown_eq]; rfl
@[simp] theorem State.countdown_seq : s.countdown.seq = s.seq := by rw [s.countdown_eq]; rfl
@[simp] theorem State.countdown_idx : s.countdown.idx = s.idx := by rw [s.countdown_eq]; rfl
@[simp] theorem State.countdown_settleCnt : s.countdown.settleCnt = s.settleCnt := by rw [s.countdown_eq]; rfl
@[simp] theorem State.countdown_abortCode : s.countdown.abortCode = s.abortCode := by rw [s.countdown_eq]; rfl
@[simp] theorem State.countdown_trace : s.countdown.trace = s.trace := by rw [s.countdown_eq]; rfl
@[simp] theorem State.countdown_resp : s.countdown.resp = s.resp := by rw [s.countdown_eq]; rfl

/-- A pending command, or no input at all, stays as it is while the machine steps by itself. -/
theorem State.countdown_of_onlyCommands (h : onlyCommands s.host = true) : s.countdown = s := by
  unfold State.countdown
  split
  · rename_i n rest hh
    rw [hh] at h
    simp [onlyCommands] at h
  · rfl

end Updates

end Sys2Proof.Machine
end

