-- ==== Sys2Proof/Laws/Ops.lean ====
section
/-! SUPPORT. One specification lemma per shared operation: everything it can do, so that a proof cites it and does not
unfold the operation. -/

namespace Sys2Proof.Machine

/-! ### Range checks -/

theorem pinIndex?_eq_some {pin : Int} {p : Fin 8} : pinIndex? pin = some p ↔ pin = (p.val : Int) := by
  unfold pinIndex?
  split
  · rename_i h
    constructor
    · intro hp
      have := congrArg Fin.val (Option.some.inj hp)
      simp only at this
      omega
    · rintro rfl
      simp
  · rename_i h
    constructor
    · intro hp; cases hp
    · rintro rfl
      have := p.isLt
      omega

theorem pinIndex?_eq_none {pin : Int} : pinIndex? pin = none ↔ pin < 0 ∨ 7 < pin := by
  unfold pinIndex?
  split
  · rename_i h
    constructor
    · intro hp; cases hp
    · intro hp; omega
  · rename_i h
    constructor
    · intro _; omega
    · intro _; rfl

@[simp] theorem pinIndex?_val (p : Fin 8) : pinIndex? (p.val : Int) = some p := pinIndex?_eq_some.2 rfl

theorem bit_zero_or_one (v : Bit) : v = 0#1 ∨ v = 1#1 := by revert v; decide

theorem bitValue?_eq_some {value : Int} {v : Bit} : bitValue? value = some v ↔ value = (v.toNat : Int) := by
  unfold bitValue?
  rcases bit_zero_or_one v with rfl | rfl <;> split
  · simp_all
  · split <;> simp_all
  · simp_all
  · split <;> simp_all

theorem bitValue?_eq_none {value : Int} : bitValue? value = none ↔ value ≠ 0 ∧ value ≠ 1 := by
  unfold bitValue?
  split
  · simp_all
  · split <;> simp_all

@[simp] theorem bitValue?_toNat (v : Bit) : bitValue? (v.toNat : Int) = some v := bitValue?_eq_some.2 rfl

/-! ### Bits of a register byte -/

/-- The mask of a pin has that one bit (R50). -/
theorem pinMask_getLsbD (p q : Fin 8) : (pinMask p).getLsbD q.val = decide (q = p) := by
  revert p q; decide

/-- `read_bit` returns 0 or 1, the bit of the pin (R100). -/
theorem readBit_value (x : Byte) (p : Fin 8) : (x >>> p.val) &&& 1#8 = bif x.getLsbD p.val then 1#8 else 0#8 := by
  have h1 : ∀ q : Fin 8, (1#8).getLsbD q.val = decide (q.val = 0) := by decide
  apply BitVec.eq_of_getLsbD_eq
  intro i hi
  have h := h1 ⟨i, hi⟩
  simp only at h
  rw [BitVec.getLsbD_and, h, BitVec.getLsbD_ushiftRight]
  by_cases hi0 : i = 0
  · subst hi0
    rw [Nat.add_zero]
    cases x.getLsbD p.val <;> rfl
  · cases x.getLsbD p.val <;> simp only [hi0, decide_false, Bool.and_false, cond_true, cond_false, h,
      BitVec.getLsbD_zero]

/-- The bits of a byte in which one bit was put. -/
theorem putByte_getLsbD (x : Byte) (p q : Fin 8) (v : Bit) :
    (if v = 0#1 then x &&& ~~~pinMask p else x ||| pinMask p).getLsbD q.val =
      if q = p then decide (v = 1#1) else x.getLsbD q.val := by
  have hq : decide (q.val < 8) = true := decide_eq_true q.isLt
  rcases bit_zero_or_one v with rfl | rfl
  · rw [if_pos rfl, BitVec.getLsbD_and, BitVec.getLsbD_not, pinMask_getLsbD, hq]
    by_cases h : q = p <;> simp only [h, decide_true, decide_false, Bool.not_true, Bool.not_false, Bool.and_true,
      Bool.and_false, if_true, if_false]
    rfl
  · rw [if_neg (by decide), BitVec.getLsbD_or, pinMask_getLsbD]
    by_cases h : q = p <;> simp only [h, decide_true, decide_false, Bool.or_true, Bool.or_false, if_true, if_false]

/-- `write_bit` once its checks have passed: one bit of one register (R101, R22). -/
theorem State.putBit_getLsbD (s : State) (r r' : Reg) (p q : Fin 8) (v : Bit) :
    ((s.putBit r p v).reg r').getLsbD q.val =
      if r' = r ∧ q = p then decide (v = 1#1) else (s.reg r').getLsbD q.val := by
  cases r <;> cases r' <;> simp only [State.reg_data, State.reg_dir, State.putBit_data_data, State.putBit_dir_dir,
    State.putBit_dir_data, State.putBit_data_dir, putByte_getLsbD, true_and, reduceCtorEq, false_and, if_false]

/-- A pin made an output is one (R155, R156). -/
theorem State.outputs_putBit_self (s : State) {role : Byte} {p : Fin 8} (h : role.toNat = p.val) :
    (s.putBit .dir p 1#1).outputs role = true := by
  have hb := s.putBit_getLsbD .dir .dir p p 1#1
  rw [if_pos ⟨rfl, rfl⟩, State.reg_dir] at hb
  have hp := p.isLt
  unfold State.outputs
  rw [h, hb]
  simp

/-- Making a pin an output clears no other output (R168). -/
theorem State.outputs_putBit_dir (s : State) {role : Byte} (h : s.outputs role = true) (p : Fin 8) :
    (s.putBit .dir p 1#1).outputs role = true := by
  unfold State.outputs at h ⊢
  rw [Bool.and_eq_true, decide_eq_true_eq] at h ⊢
  have hb := s.putBit_getLsbD .dir .dir p ⟨role.toNat, h.1⟩ 1#1
  simp only [State.reg_dir] at hb
  refine ⟨h.1, ?_⟩
  rw [hb]
  split
  · rfl
  · exact h.2

/-! ### The primitives and the procedures -/

/-- Everything `read_bit` can do (R100). -/
theorem readBit_cases (s : State) (r : Reg) (pin : Int) :
    (∃ p : Fin 8, pin = (p.val : Int) ∧
      readBit s r pin = .ok (bif (s.reg r).getLsbD p.val then 1#8 else 0#8)) ∨
    ((pin < 0 ∨ 7 < pin) ∧ readBit s r pin = .error .invalidPin) := by
  unfold readBit
  cases h : pinIndex? pin with
  | none => exact .inr ⟨pinIndex?_eq_none.1 h, rfl⟩
  | some p => exact .inl ⟨p, pinIndex?_eq_some.1 h, by rw [← readBit_value]⟩

@[simp] theorem readBit_val (s : State) (r : Reg) (p : Fin 8) :
    readBit s r (p.val : Int) = .ok (bif (s.reg r).getLsbD p.val then 1#8 else 0#8) := by
  rw [← readBit_value]
  simp [readBit]

/-- Everything `write_bit` can do (R101). -/
theorem writeBit_cases (s : State) (r : Reg) (pin value : Int) :
    (∃ (p : Fin 8) (v : Bit), pin = (p.val : Int) ∧ value = (v.toNat : Int) ∧
      writeBit s r pin value = .ok (s.putBit r p v)) ∨
    ((pin < 0 ∨ 7 < pin) ∧ writeBit s r pin value = .error .invalidPin) ∨
    ((0 ≤ pin ∧ pin ≤ 7) ∧ (value ≠ 0 ∧ value ≠ 1) ∧ writeBit s r pin value = .error .invalidValue) := by
  unfold writeBit
  cases h : pinIndex? pin with
  | none => exact .inr (.inl ⟨pinIndex?_eq_none.1 h, rfl⟩)
  | some p =>
    have hp := pinIndex?_eq_some.1 h
    cases hv : bitValue? value with
    | none =>
      have := p.isLt
      exact .inr (.inr ⟨by omega, bitValue?_eq_none.1 hv, rfl⟩)
    | some v => exact .inl ⟨p, v, hp, bitValue?_eq_some.1 hv, rfl⟩

@[simp] theorem writeBit_val (s : State) (r : Reg) (p : Fin 8) (v : Bit) :
    writeBit s r (p.val : Int) (v.toNat : Int) = .ok (s.putBit r p v) := by
  simp [writeBit]

/-- Everything `write_pin` can do (R121). -/
theorem writePin_cases (s : State) (pin value : Int) :
    (∃ (p : Fin 8) (v : Bit), pin = (p.val : Int) ∧ value = (v.toNat : Int) ∧ s.dir.getLsbD p.val = true ∧
      writePin s pin value = .ok (s.putBit .data p v)) ∨
    ((pin < 0 ∨ 7 < pin) ∧ writePin s pin value = .error .invalidPin) ∨
    (∃ p : Fin 8, pin = (p.val : Int) ∧ s.dir.getLsbD p.val = false ∧
      writePin s pin value = .error .pinNotConfigured) ∨
    (∃ p : Fin 8, pin = (p.val : Int) ∧ s.dir.getLsbD p.val = true ∧ (value ≠ 0 ∧ value ≠ 1) ∧
      writePin s pin value = .error .invalidValue) := by
  unfold writePin
  rcases readBit_cases s .dir pin with ⟨p, rfl, hr⟩ | ⟨hp, hr⟩
  · rw [hr]
    rcases Bool.eq_false_or_eq_true (s.dir.getLsbD p.val) with hd | hd
    rotate_left
    ·  exact .inr (.inr (.inl ⟨p, rfl, hd, by simp only [State.reg_dir, hd, cond_false, if_true]⟩))
    · have hok : (if (bif (s.reg .dir).getLsbD p.val then 1#8 else 0#8) = 0#8 then
          (.error .pinNotConfigured : Except Status State) else writeBit s .data (p.val : Int) value) =
          writeBit s .data (p.val : Int) value := by
        simp only [State.reg_dir, hd]
        rfl
      dsimp only
      rw [hok]
      rcases writeBit_cases s .data (p.val : Int) value with ⟨q, v, hq, hv, hw⟩ | ⟨hq, _⟩ | ⟨_, hv, hw⟩
      · have : q = p := by apply Fin.ext; omega
        subst this
        exact .inl ⟨q, v, rfl, hv, hd, hw⟩
      · have := p.isLt
        omega
      · exact .inr (.inr (.inr ⟨p, rfl, hd, hv, hw⟩))
  · exact .inr (.inl ⟨hp, by rw [hr]⟩)

/-- Everything `toggle_pin` can do: its arm of InternalConsistencyFault is not among it (R123). -/
theorem togglePin_cases (s : State) (pin : Int) :
    (∃ p : Fin 8, pin = (p.val : Int) ∧ s.dir.getLsbD p.val = true ∧
      togglePin s pin = .ok (s.putBit .data p (bif s.data.getLsbD p.val then 0#1 else 1#1))) ∨
    ((pin < 0 ∨ 7 < pin) ∧ togglePin s pin = .error .invalidPin) ∨
    (∃ p : Fin 8, pin = (p.val : Int) ∧ s.dir.getLsbD p.val = false ∧
      togglePin s pin = .error .pinNotConfigured) := by
  unfold togglePin readPin
  rcases readBit_cases s .data pin with ⟨p, rfl, hr⟩ | ⟨hp, hr⟩
  · have hc : ∀ b : Bool, ¬((bif b then 1#8 else 0#8) ≠ 0#8 ∧ (bif b then 1#8 else 0#8) ≠ 1#8) ∧
        1 - (((bif b then 1#8 else 0#8).toNat : Nat) : Int) = ((bif b then 0#1 else 1#1 : Bit).toNat : Int) := by decide
    obtain ⟨h1, h2⟩ := hc ((s.reg .data).getLsbD p.val)
    rw [hr]
    dsimp only
    rw [if_neg h1, h2]
    change _ ∨ _ ∨ _
    simp only [State.reg_data]
    rcases writePin_cases s (p.val : Int) ((bif s.data.getLsbD p.val then 0#1 else 1#1 : Bit).toNat : Int) with
      ⟨q, v, hq, hv, hd, hw⟩ | ⟨hq, _⟩ | ⟨q, hq, hd, hw⟩ | ⟨q, _, _, hv, _⟩
    · have : q = p := by apply Fin.ext; omega
      subst this
      have : v = bif s.data.getLsbD q.val then 0#1 else 1#1 := BitVec.eq_of_toNat_eq (by omega)
      exact .inl ⟨q, rfl, hd, by subst this; exact hw⟩
    · have := p.isLt
      omega
    · have : q = p := by apply Fin.ext; omega
      subst this
      exact .inr (.inr ⟨q, rfl, hd, hw⟩)
    · exfalso
      revert hv
      cases s.data.getLsbD p.val <;> simp
  · exact .inr (.inl ⟨hp, by rw [hr]⟩)

/-! ### The ends of commands and micro-steps -/

/-- A command completes exactly in a ready block (R27). -/
theorem whenReady_eq_next {s n t : State} : whenReady s n = .next t ↔ s.ready = true ∧ n = t := by
  unfold whenReady
  cases s.ready <;> simp

@[simp] theorem whenReady_of_ready {s n : State} (h : s.ready = true) : whenReady s n = .next n := by
  simp [whenReady, h]

@[simp] theorem completeWrite_ok (s t : State) : completeWrite s (.ok t) = t.respond .ok 0#16 := rfl
@[simp] theorem completeWrite_error (s : State) (e : Status) : completeWrite s (.error e) = s.respond e 0#16 := rfl
@[simp] theorem completeRead_ok (s : State) (b : Byte) : completeRead s (.ok b) = s.respond .ok (b.setWidth 16) := rfl
@[simp] theorem completeRead_error (s : State) (e : Status) : completeRead s (.error e) = s.respond e 0#16 := rfl
@[simp] theorem orAbort_ok (s t : State) (go : State → State) : orAbort s (.ok t) go = go t := rfl
@[simp] theorem orAbort_error (s : State) (e : Status) (go : State → State) : orAbort s (.error e) go = s.abort e := rfl

/-- The status field of a response word (R72). -/
theorem respWord_status (st : Status) (d : BitVec 16) : (respWord st d).extractLsb' 16 4 = st.code :=
  BitVec.extractLsb'_append_eq_left

/-- The data field of a response word (R72). -/
theorem respWord_data (st : Status) (d : BitVec 16) : (respWord st d).extractLsb' 0 16 = d :=
  BitVec.extractLsb'_append_eq_right

/-- Different statuses have different codes (R72). -/
theorem Status.code_injective : Function.Injective Status.code := by
  intro a b
  cases a <;> cases b <;> simp [Status.code]

end Sys2Proof.Machine
end

