-- ==== Sys2Proof/Laws/Step.lean ====
section
/-! SUPPORT. What a command, a micro-step and a step of the machine can do: one inversion lemma each, which every invariant is
derived from. -/

namespace Sys2Proof.Machine

/-! ### Procedures called with a role's pin -/

/-- A role's pin is in range or beyond it (R8, R168). -/
theorem role_cases (role : Byte) : (∃ p : Fin 8, role.toNat = p.val) ∨ 7 < role.toNat := by
  rcases Nat.lt_or_ge role.toNat 8 with h | h
  · exact .inl ⟨⟨role.toNat, h⟩, rfl⟩
  · exact .inr (by omega)

theorem configure_role_cases (s : State) (role : Byte) :
    (∃ p : Fin 8, role.toNat = p.val ∧ configureDirection s (roleArg role) 1 = .ok (s.putBit .dir p 1#1)) ∨
    (7 < role.toNat ∧ configureDirection s (roleArg role) 1 = .error .invalidPin) := by
  unfold configureDirection roleArg
  rcases writeBit_cases s .dir (role.toNat : Int) 1 with ⟨p, v, hp, hv, hw⟩ | ⟨hp, hw⟩ | ⟨_, ⟨_, hv⟩, _⟩
  · have : v = 1#1 := BitVec.eq_of_toNat_eq (by simp; omega)
    subst this
    exact .inl ⟨p, by omega, hw⟩
  · exact .inr ⟨by omega, hw⟩
  · exact absurd rfl hv

theorem toggle_role_cases (s : State) (role : Byte) :
    (∃ p : Fin 8, role.toNat = p.val ∧ s.dir.getLsbD p.val = true ∧
      togglePin s (roleArg role) = .ok (s.putBit .data p (bif s.data.getLsbD p.val then 0#1 else 1#1))) ∨
    (∃ e, s.outputs role = false ∧ (e = .invalidPin ∨ e = .pinNotConfigured) ∧
      togglePin s (roleArg role) = .error e) := by
  unfold roleArg State.outputs
  rcases togglePin_cases s (role.toNat : Int) with ⟨p, hp, hd, hw⟩ | ⟨hp, hw⟩ | ⟨p, hp, hd, hw⟩
  · exact .inl ⟨p, by omega, hd, hw⟩
  · refine .inr ⟨_, ?_, .inl rfl, hw⟩
    have : ¬ role.toNat < 8 := by omega
    simp [this]
  · refine .inr ⟨_, ?_, .inr rfl, hw⟩
    have : role.toNat = p.val := by omega
    rw [this, hd, Bool.and_false]

theorem write_role_cases (s : State) (role : Byte) (b : Bit) :
    (∃ p : Fin 8, role.toNat = p.val ∧ s.dir.getLsbD p.val = true ∧
      writePin s (roleArg role) (b.toNat : Int) = .ok (s.putBit .data p b)) ∨
    (∃ e, s.outputs role = false ∧ (e = .invalidPin ∨ e = .pinNotConfigured) ∧
      writePin s (roleArg role) (b.toNat : Int) = .error e) := by
  unfold roleArg State.outputs
  rcases writePin_cases s (role.toNat : Int) (b.toNat : Int) with
    ⟨p, v, hp, hv, hd, hw⟩ | ⟨hp, hw⟩ | ⟨p, hp, hd, hw⟩ | ⟨p, _, _, hv, _⟩
  · have : v = b := BitVec.eq_of_toNat_eq (by omega)
    subst this
    exact .inl ⟨p, by omega, hd, hw⟩
  · refine .inr ⟨_, ?_, .inl rfl, hw⟩
    have : ¬ role.toNat < 8 := by omega
    simp [this]
  · refine .inr ⟨_, ?_, .inr rfl, hw⟩
    have : role.toNat = p.val := by omega
    rw [this, hd, Bool.and_false]
  · exfalso
    rcases bit_zero_or_one b with rfl | rfl <;> simp at hv

/-! ### The sequencer -/

/-- Everything a micro-step can do (R153 to R164, R207). -/
theorem microStep_cases {c : Config} {s t : State} (h : microStep c s = .next t) :
    (s.seq = .iReport ∧ t = s.report.goto .iSettle) ∨
    (s.seq = .iSettle ∧ 0 < s.settleCnt ∧ t = { s.tick with settleCnt := s.settleCnt - 1 }) ∨
    (s.seq = .iSettle ∧ s.settleCnt = 0 ∧ t = s.goto .iCfgData) ∨
    (s.seq = .iCfgData ∧ ∃ p : Fin 8, c.dataPin.toNat = p.val ∧ t = (s.putBit .dir p 1#1).goto .iCfgClock) ∨
    (s.seq = .iCfgClock ∧ ∃ p : Fin 8, c.clockPin.toNat = p.val ∧ t = (s.putBit .dir p 1#1).dispatch 0) ∨
    (s.seq = .aToggle ∧ ∃ p : Fin 8, c.clockPin.toNat = p.val ∧ s.dir.getLsbD p.val = true ∧
      t = (s.putBit .data p (bif s.data.getLsbD p.val then 0#1 else 1#1)).goto .aTick) ∨
    (s.seq = .aTick ∧ t = s.tick.goto .tData) ∨
    (s.seq = .tData ∧ ∃ (p : Fin 8) (b : Bit), c.dataPin.toNat = p.val ∧ s.dir.getLsbD p.val = true ∧
      s.buf[s.idx]? = some b ∧ t = (s.putBit .data p b).goto .tStrobe) ∨
    (s.seq = .tStrobe ∧ ∃ p : Fin 8, c.clockPin.toNat = p.val ∧ s.dir.getLsbD p.val = true ∧
      t = (s.putBit .data p (bif s.data.getLsbD p.val then 0#1 else 1#1)).goto .tReport) ∨
    (s.seq = .tReport ∧ t = s.report.goto .tTick) ∨
    (s.seq = .tTick ∧ t = s.tick.dispatch (s.idx + 1)) ∨
    (s.seq = .iCfgData ∧ 7 < c.dataPin.toNat ∧ t = s.abort .invalidPin) ∨
    (s.seq = .iCfgClock ∧ 7 < c.clockPin.toNat ∧ t = s.abort .invalidPin) ∨
    (∃ e, (e = .invalidPin ∨ e = .pinNotConfigured) ∧ t = s.abort e ∧
      ((s.seq = .aToggle ∧ s.outputs c.clockPin = false) ∨ (s.seq = .tData ∧ s.outputs c.dataPin = false) ∨
        (s.seq = .tStrobe ∧ s.outputs c.clockPin = false))) := by
  unfold microStep at h
  cases hs : s.seq <;> rw [hs] at h <;> dsimp only at h
  case idle => cases h
  case done => cases h
  case aborted => cases h
  case iReport => cases h; simp [stepIReport]
  case iSettle =>
    cases h
    unfold stepISettle
    split
    · simp_all
    · rename_i h0
      have : s.settleCnt = 0 := by omega
      simp_all
  case iCfgData =>
    cases h
    unfold stepICfgData
    rcases configure_role_cases s c.dataPin with ⟨p, hp, hw⟩ | ⟨hp, hw⟩
    · rw [hw]; simp [hp, Fin.val_inj]
    · rw [hw]; simp [hp]
  case iCfgClock =>
    cases h
    unfold stepICfgClock
    rcases configure_role_cases s c.clockPin with ⟨p, hp, hw⟩ | ⟨hp, hw⟩
    · rw [hw]; simp [hp, Fin.val_inj]
    · rw [hw]; simp [hp]
  case aToggle =>
    cases h
    unfold stepAToggle
    rcases toggle_role_cases s c.clockPin with ⟨p, hp, hd, hw⟩ | ⟨e, ho, he, hw⟩
    · rw [hw]
      exact .inr (.inr (.inr (.inr (.inr (.inl ⟨rfl, p, hp, hd, rfl⟩)))))
    · rw [hw]; rcases he with rfl | rfl <;> simp [ho]
  case aTick => cases h; simp [stepATick]
  case tData =>
    cases hb : s.buf[s.idx]? with
    | none => rw [hb] at h; cases h
    | some b =>
      rw [hb] at h
      cases h
      unfold stepTData
      rcases write_role_cases s c.dataPin b with ⟨p, hp, hd, hw⟩ | ⟨e, ho, he, hw⟩
      · rw [hw]
        exact .inr (.inr (.inr (.inr (.inr (.inr (.inr (.inl ⟨rfl, p, b, hp, hd, rfl, rfl⟩)))))))
      · rw [hw]; rcases he with rfl | rfl <;> simp [ho]
  case tStrobe =>
    cases h
    unfold stepTStrobe
    rcases toggle_role_cases s c.clockPin with ⟨p, hp, hd, hw⟩ | ⟨e, ho, he, hw⟩
    · rw [hw]
      exact .inr (.inr (.inr (.inr (.inr (.inr (.inr (.inr (.inl ⟨rfl, p, hp, hd, rfl⟩))))))))
    · rw [hw]; rcases he with rfl | rfl <;> simp [ho]
  case tReport => cases h; simp [stepTReport]
  case tTick => cases h; simp [stepTTick]

/-- The sequencer has a step wherever IDX is inside BUF at `T_DATA` (R27). -/
theorem microStep_completes (c : Config) {s : State} (hs : s.seq.agent = .sequencer)
    (hi : s.seq = .tData → s.idx < s.buf.length) : ∃ t, microStep c s = .next t := by
  unfold microStep
  cases h : s.seq <;> rw [h] at hs <;> first | (cases hs; done) | exact ⟨_, rfl⟩ | skip
  have hb := List.getElem?_eq_getElem (hi h)
  simp only [hb]
  exact ⟨_, rfl⟩

/-! ### A command -/

/-- What a completed read leaves: a response and nothing else. -/
theorem completeRead_respond (s : State) (r : Except Status Byte) : ∃ st d, completeRead s r = s.respond st d := by
  cases r <;> exact ⟨_, _, rfl⟩

/-- Everything a command can do: respond only, write the one bit it names (`commandTarget?`), append to BUF, or start a session.
A bit of DATA is written only where DIR makes it an output, or by WRBIT.DATA (R58). -/
theorem exec_cases {i : Instr} {s t : State} (h : exec i s = .next t) :
    s.ready = true ∧
    ((∃ st d, t = s.respond st d) ∨
     (∃ (r : Reg) (p : Fin 8) (v : Bit), t = (s.putBit r p v).respond .ok 0#16 ∧
       commandTarget? i = some (r, (p.val : Int)) ∧ (r = .data → s.dir.getLsbD p.val = true ∨ i = .wrbitData p.val v.toNat)) ∨
     (∃ b, i = .encb b ∧ overCap Config.block.bufCap (s.buf.length + 8) = false ∧
       t = { s with buf := s.buf ++ byteBits b }.respond .ok 0#16) ∨
     (i = .send ∧ t = s.startSession Config.block)) := by
  cases i <;> simp only [exec, execRdbitData, execRdbitDir, execWrbitData, execWrbitDir, execCfgdir, execWrpin, execRdpin,
    execTglpin, execEncb, execSend, execRender, whenReady_eq_next] at h
  case rdbitData pin =>
    obtain ⟨st, d, hr⟩ := completeRead_respond s (readBit s .data (pinArg pin))
    exact ⟨h.1, .inl ⟨st, d, by rw [← h.2, hr]⟩⟩
  case rdbitDir pin =>
    obtain ⟨st, d, hr⟩ := completeRead_respond s (readBit s .dir (pinArg pin))
    exact ⟨h.1, .inl ⟨st, d, by rw [← h.2, hr]⟩⟩
  case rdpin pin =>
    obtain ⟨st, d, hr⟩ := completeRead_respond s (readPin s (pinArg pin))
    exact ⟨h.1, .inl ⟨st, d, by rw [← h.2, hr]⟩⟩
  case wrbitData pin val =>
    refine ⟨h.1, ?_⟩
    obtain ⟨_, rfl⟩ := h
    rcases writeBit_cases s .data (pinArg pin) (valArg val) with ⟨p, v, hp, hv, hw⟩ | ⟨_, hw⟩ | ⟨_, _, hw⟩ <;> rw [hw]
    · refine .inr (.inl ⟨_, p, v, rfl, by rw [commandTarget?, hp], fun _ => .inr ?_⟩)
      have h1 : pin = p.val := by simpa [pinArg] using hp
      have h2 : val = v.toNat := Int.ofNat.inj hv
      rw [h1, h2]
    · exact .inl ⟨_, _, rfl⟩
    · exact .inl ⟨_, _, rfl⟩
  case wrbitDir pin val =>
    refine ⟨h.1, ?_⟩
    obtain ⟨_, rfl⟩ := h
    rcases writeBit_cases s .dir (pinArg pin) (valArg val) with ⟨p, v, hp, _, hw⟩ | ⟨_, hw⟩ | ⟨_, _, hw⟩ <;> rw [hw]
    · exact .inr (.inl ⟨_, p, v, rfl, by rw [commandTarget?, hp], fun hr => by cases hr⟩)
    · exact .inl ⟨_, _, rfl⟩
    · exact .inl ⟨_, _, rfl⟩
  case cfgdir pin val =>
    refine ⟨h.1, ?_⟩
    obtain ⟨_, rfl⟩ := h
    unfold configureDirection
    rcases writeBit_cases s .dir (pinArg pin) (valArg val) with ⟨p, v, hp, _, hw⟩ | ⟨_, hw⟩ | ⟨_, _, hw⟩ <;> rw [hw]
    · exact .inr (.inl ⟨_, p, v, rfl, by rw [commandTarget?, hp], fun hr => by cases hr⟩)
    · exact .inl ⟨_, _, rfl⟩
    · exact .inl ⟨_, _, rfl⟩
  case wrpin pin val =>
    refine ⟨h.1, ?_⟩
    obtain ⟨_, rfl⟩ := h
    rcases writePin_cases s (pinArg pin) (valArg val) with
      ⟨p, v, hp, _, hd, hw⟩ | ⟨_, hw⟩ | ⟨_, _, _, hw⟩ | ⟨_, _, _, _, hw⟩ <;> rw [hw]
    · exact .inr (.inl ⟨_, p, v, rfl, by rw [commandTarget?, hp], fun _ => .inl hd⟩)
    · exact .inl ⟨_, _, rfl⟩
    · exact .inl ⟨_, _, rfl⟩
    · exact .inl ⟨_, _, rfl⟩
  case tglpin pin =>
    refine ⟨h.1, ?_⟩
    obtain ⟨_, rfl⟩ := h
    rcases togglePin_cases s (pinArg pin) with ⟨p, hp, hd, hw⟩ | ⟨_, hw⟩ | ⟨_, _, _, hw⟩ <;> rw [hw]
    · exact .inr (.inl ⟨_, p, _, rfl, by rw [commandTarget?, hp], fun _ => .inl hd⟩)
    · exact .inl ⟨_, _, rfl⟩
    · exact .inl ⟨_, _, rfl⟩
  case encb b =>
    refine ⟨h.1, ?_⟩
    obtain ⟨_, rfl⟩ := h
    unfold encodeByte
    cases ho : overCap Config.block.bufCap (s.buf.length + 8)
    · exact .inr (.inr (.inl ⟨b, rfl, rfl, rfl⟩))
    · exact .inl ⟨_, _, rfl⟩
  case send => exact ⟨h.1, .inr (.inr (.inr ⟨rfl, h.2.symm⟩))⟩
  case render => exact ⟨h.1, .inl ⟨_, _, h.2.symm⟩⟩

/-! ### A step of the machine -/

/-- Everything a step can do: reset; run the host's command; answer a reserved word; let the step go by at rest; or run the
sequencer's micro-step (R18, R27, R230). -/
theorem step_cases {s t : State} (h : step s = .next t) :
    (∃ rest, s.host = .resetAfter 0 :: rest ∧ t = resetBlock rest) ∨
    (s.resetNow = false ∧ s.seq.agent = .host ∧ ∃ w i rest, s.host = .command w :: rest ∧ decode w = .ok i ∧
      exec i (s.withHost rest) = .next t) ∨
    (s.resetNow = false ∧ s.seq.agent = .host ∧ ∃ w e rest, s.host = .command w :: rest ∧ decode w = .error e ∧
      t = rejectCommand (s.withHost rest)) ∨
    (s.resetNow = false ∧ s.seq.agent ≠ .sequencer ∧ t = s.countdown ∧ ∀ w rest, s.host ≠ .command w :: rest) ∨
    (s.resetNow = false ∧ s.seq.agent = .sequencer ∧ microStep Config.block s.countdown = .next t) := by
  unfold step at h
  split at h
  · rename_i rest hh
    exact .inl ⟨rest, hh, by cases h; rfl⟩
  · rename_i hn
    have hr : s.resetNow = false := by
      unfold State.resetNow
      split
      · rename_i hh
        exact absurd hh (hn _)
      · rfl
    refine .inr ?_
    cases ha : s.seq.agent <;> rw [ha] at h <;> dsimp only at h
    · unfold hostTurn at h
      split at h
      · rename_i w rest hh
        unfold runCommand at h
        cases hd : decode w with
        | ok i =>
          rw [hd] at h
          exact .inl ⟨hr, rfl, w, i, rest, hh, hd, h⟩
        | error e =>
          rw [hd] at h
          exact .inr (.inl ⟨hr, rfl, w, e, rest, hh, hd, by cases h; rfl⟩)
      · rename_i hc
        exact .inr (.inr (.inl ⟨hr, by simp, by cases h; rfl, fun w rest hh => hc w rest hh⟩))
    · exact .inr (.inr (.inr ⟨hr, rfl, h⟩))
    · unfold abortedTurn at h
      split at h
      · rename_i hh
        exact .inr (.inr (.inl ⟨hr, by simp, by cases h; rfl, fun w rest hw => by rw [hh] at hw; cases hw⟩))
      · cases h

end Sys2Proof.Machine
end

