-- ==== Sys2Proof/Laws/PerInstr.lean ====
section
/-! SUPPORT. Statements made per command: the fields of a command's word (30_encoding.md R70, R71, R73). -/

namespace Sys2Proof

theorem opField_commandWord {op pin val : Nat} (ho : op < 16) (hp : pin < 16) (hv : val < 256) :
    opField (commandWord op pin val) = op := by
  simp only [opField, commandWord, BitVec.extractLsb'_toNat, BitVec.toNat_ofNat, Nat.shiftRight_eq_div_pow]
  omega

theorem pinField_commandWord {op pin val : Nat} (hp : pin < 16) (hv : val < 256) :
    pinField (commandWord op pin val) = pin := by
  simp only [pinField, commandWord, BitVec.extractLsb'_toNat, BitVec.toNat_ofNat, Nat.shiftRight_eq_div_pow]
  omega

theorem valField_commandWord {op pin val : Nat} (hv : val < 256) :
    (valField (commandWord op pin val)).toNat = val := by
  simp only [valField, commandWord, BitVec.extractLsb'_toNat, BitVec.toNat_ofNat, Nat.shiftRight_eq_div_pow]
  omega

namespace Laws

/-- OP, PIN and VAL of a command's word, from the rows of R73; a field a format does not use is zero (R71). -/
def rowFields : Instr → Nat × Nat × Nat
  | .rdbitData pin => (0x1, pin, 0)
  | .rdbitDir pin => (0x2, pin, 0)
  | .wrbitData pin val => (0x3, pin, val)
  | .wrbitDir pin val => (0x4, pin, val)
  | .cfgdir pin val => (0x5, pin, val)
  | .wrpin pin val => (0x6, pin, val)
  | .rdpin pin => (0x7, pin, 0)
  | .tglpin pin => (0x8, pin, 0)
  | .encb b => (0x9, 0, b.toNat)
  | .send => (0xA, 0, 0)
  | .render => (0xB, 0, 0)

/-- A well-formed command's word carries its row's opcode and its operands in their fields, and zero in the unused ones. -/
def FieldsCarryOperands.Statement (i : Instr) : Prop :=
  i.wellFormed = true →
    (opField (encode i), pinField (encode i), (valField (encode i)).toNat) = rowFields i

theorem FieldsCarryOperands.of_row {i : Instr} {op pin val : Nat} (he : encode i = commandWord op pin val)
    (hr : rowFields i = (op, pin, val)) (ho : op < 16) (hp : pin < 16) (hv : val < 256) :
    (opField (encode i), pinField (encode i), (valField (encode i)).toNat) = rowFields i := by
  rw [he, hr, opField_commandWord ho hp hv, pinField_commandWord hp hv, valField_commandWord hv]

theorem FieldsCarryOperands.rdbitData (pin : Nat) : FieldsCarryOperands.Statement (.rdbitData pin) := fun h =>
  of_row rfl rfl (by omega) (by simpa [Instr.wellFormed, pinEncodable] using h) (by omega)

theorem FieldsCarryOperands.rdbitDir (pin : Nat) : FieldsCarryOperands.Statement (.rdbitDir pin) := fun h =>
  of_row rfl rfl (by omega) (by simpa [Instr.wellFormed, pinEncodable] using h) (by omega)

theorem FieldsCarryOperands.wrbitData (pin val : Nat) : FieldsCarryOperands.Statement (.wrbitData pin val) := fun h => by
  have h : pin < 16 ∧ val < 256 := by simpa [Instr.wellFormed, pinEncodable, valEncodable] using h
  exact of_row rfl rfl (by omega) h.1 h.2

theorem FieldsCarryOperands.wrbitDir (pin val : Nat) : FieldsCarryOperands.Statement (.wrbitDir pin val) := fun h => by
  have h : pin < 16 ∧ val < 256 := by simpa [Instr.wellFormed, pinEncodable, valEncodable] using h
  exact of_row rfl rfl (by omega) h.1 h.2

theorem FieldsCarryOperands.cfgdir (pin val : Nat) : FieldsCarryOperands.Statement (.cfgdir pin val) := fun h => by
  have h : pin < 16 ∧ val < 256 := by simpa [Instr.wellFormed, pinEncodable, valEncodable] using h
  exact of_row rfl rfl (by omega) h.1 h.2

theorem FieldsCarryOperands.wrpin (pin val : Nat) : FieldsCarryOperands.Statement (.wrpin pin val) := fun h => by
  have h : pin < 16 ∧ val < 256 := by simpa [Instr.wellFormed, pinEncodable, valEncodable] using h
  exact of_row rfl rfl (by omega) h.1 h.2

theorem FieldsCarryOperands.rdpin (pin : Nat) : FieldsCarryOperands.Statement (.rdpin pin) := fun h =>
  of_row rfl rfl (by omega) (by simpa [Instr.wellFormed, pinEncodable] using h) (by omega)

theorem FieldsCarryOperands.tglpin (pin : Nat) : FieldsCarryOperands.Statement (.tglpin pin) := fun h =>
  of_row rfl rfl (by omega) (by simpa [Instr.wellFormed, pinEncodable] using h) (by omega)

theorem FieldsCarryOperands.encb (b : Byte) : FieldsCarryOperands.Statement (.encb b) := fun _ =>
  of_row rfl rfl (by omega) (by omega) b.isLt

theorem FieldsCarryOperands.send : FieldsCarryOperands.Statement .send := fun _ =>
  of_row rfl rfl (by omega) (by omega) (by omega)

theorem FieldsCarryOperands.render : FieldsCarryOperands.Statement .render := fun _ =>
  of_row rfl rfl (by omega) (by omega) (by omega)

end Laws

end Sys2Proof
end

