-- ==== Sys2Proof/Tests/Slice0.lean ====
section
/-! SUPPORT. Tests. The expected words, responses and states are those of spec/95_test_vectors.md (sections 2.1 to 2.6 and the
examples of the rules), and the encodings are written out bit by bit from 30_encoding.md R70 to R73. The last part shows, for
every statement that has hypotheses, values that meet them. -/

namespace Sys2Proof.Tests

open Sys2Proof Sys2Proof.Machine

/-! ### WellFormed -/

theorem test_wellFormed_refuses_pin_16 : (Instr.rdbitData 16).wellFormed = false := by decide
theorem test_wellFormed_refuses_pin_16_with_value : (Instr.wrpin 16 1).wellFormed = false := by decide
theorem test_wellFormed_refuses_val_256 : (Instr.wrbitDir 3 256).wellFormed = false := by decide
theorem test_wellFormed_keeps_pin_15_val_255 : (Instr.cfgdir 15 255).wellFormed = true := by decide

/-! ### Decode: one word of every row, written out from its encoding -/

theorem test_decode_rdbitData : decode 0b0001001100000000#16 = .ok (.rdbitData 3) := by decide
theorem test_decode_rdbitDir : decode 0b0010010100000000#16 = .ok (.rdbitDir 5) := by decide
theorem test_decode_wrbitData : decode 0b0011001100000001#16 = .ok (.wrbitData 3 1) := by decide
theorem test_decode_wrbitDir : decode 0b0100001111111111#16 = .ok (.wrbitDir 3 255) := by decide
theorem test_decode_cfgdir : decode 0b0101010100000001#16 = .ok (.cfgdir 5 1) := by decide
theorem test_decode_wrpin : decode 0b0110100000000010#16 = .ok (.wrpin 8 2) := by decide
theorem test_decode_rdpin : decode 0b0111001100000000#16 = .ok (.rdpin 3) := by decide
theorem test_decode_tglpin : decode 0b1000010100000000#16 = .ok (.tglpin 5) := by decide
theorem test_decode_encb : decode 0b1001000000010101#16 = .ok (.encb 21#8) := by decide
theorem test_decode_send : decode 0b1010000000000000#16 = .ok .send := by decide
theorem test_decode_render : decode 0b1011000000000000#16 = .ok .render := by decide

/-- The reserved words of section 2.5, but for the operand words below. -/
theorem test_decode_reserved_opcodes :
    [0x0000#16, 0x0123#16, 0xC000#16, 0xD000#16, 0xE000#16, 0xF000#16, 0xFFFF#16].map decode =
      List.replicate 7 (.error .opcodeUnassigned) := by decide

theorem test_decode_reserved_operands :
    [0x1801#16, 0x2001#16, 0x7001#16, 0x8001#16].map decode = List.replicate 4 (.error .valNotZero) ∧
    decode 0x9100#16 = .error .pinNotZero ∧ decode 0x9155#16 = .error .pinNotZero ∧
    [0xA001#16, 0xA100#16, 0xB001#16, 0xB100#16].map decode = List.replicate 4 (.error .operandsNotZero) := by decide

theorem test_encode_words :
    [Instr.rdbitData 8, .wrbitData 3 1, .wrbitDir 3 255, .wrpin 8 2, .tglpin 5, .encb 37#8, .send, .render].map encode =
      [0x1800#16, 0x3301#16, 0x43FF#16, 0x6802#16, 0x8500#16, 0x9025#16, 0xA000#16, 0xB000#16] := by decide

theorem test_decodeTableWord : decodeTableWord 16 0x6301 = some (.wrpin 3 1) ∧ decodeTableWord 16 0x1801 = none := by decide

/-! ### Commands: the vectors of sections 2.1 to 2.4 -/

/-- An idle block with the given register bytes. -/
def idleWith (data dir : Byte) : State :=
  { data := data, dir := dir, buf := [], seq := .idle, idx := 0, settleCnt := 0, abortCode := .ok, trace := [], resp := none,
    host := [] }

/-- What a step leaves of DATA, DIR, the response and the number of events. -/
def seen (o : Host.Outcome State Fault Refusal) : Option (Byte × Byte × Option RespWord × Nat) :=
  match o with
  | .next t => some (t.data, t.dir, t.resp, t.trace.length)
  | .fault _ => none
  | .refused _ => none

theorem test_rdbitData_bit_set : seen (exec (.rdbitData 3) (idleWith 0x08#8 0#8)) = some (0x08#8, 0#8, some 0x00001#20, 0) := by
  decide
theorem test_rdbitData_pin_8 : seen (exec (.rdbitData 8) (idleWith 0xFF#8 0#8)) = some (0xFF#8, 0#8, some 0x10000#20, 0) := by
  decide
theorem test_rdbitDir_bit_set : seen (exec (.rdbitDir 5) (idleWith 0#8 0x28#8)) = some (0#8, 0x28#8, some 0x00001#20, 0) := by
  decide
theorem test_rdbitDir_bit_clear : seen (exec (.rdbitDir 4) (idleWith 0#8 0x28#8)) = some (0#8, 0x28#8, some 0x00000#20, 0) := by
  decide
theorem test_wrbitData_clears_one_bit :
    seen (exec (.wrbitData 3 0) (idleWith 0x88#8 0#8)) = some (0x80#8, 0#8, some 0x00000#20, 1) := by decide
theorem test_wrbitData_pin_before_value :
    seen (exec (.wrbitData 8 2) (idleWith 0x88#8 0#8)) = some (0x88#8, 0#8, some 0x10000#20, 0) := by decide
theorem test_wrbitDir_clears_one_bit :
    seen (exec (.wrbitDir 3 0) (idleWith 0#8 0xFF#8)) = some (0#8, 0xF7#8, some 0x00000#20, 1) := by decide
theorem test_wrbitDir_value_255 :
    seen (exec (.wrbitDir 3 255) (idleWith 0#8 0xFF#8)) = some (0#8, 0xFF#8, some 0x20000#20, 0) := by decide
theorem test_cfgdir_sets_output :
    seen (exec (.cfgdir 3 1) (idleWith 0#8 0x20#8)) = some (0#8, 0x28#8, some 0x00000#20, 1) := by decide
theorem test_cfgdir_value_2 :
    seen (exec (.cfgdir 3 2) (idleWith 0#8 0x20#8)) = some (0#8, 0x20#8, some 0x20000#20, 0) := by decide
theorem test_wrpin_guard_before_value :
    seen (exec (.wrpin 3 2) (idleWith 0#8 0#8)) = some (0#8, 0#8, some 0x30000#20, 0) := by decide
theorem test_wrpin_writes_output :
    seen (exec (.wrpin 3 0) (idleWith 0xFF#8 0xFF#8)) = some (0xF7#8, 0xFF#8, some 0x00000#20, 1) := by decide
theorem test_rdpin_ignores_direction :
    seen (exec (.rdpin 3) (idleWith 0x08#8 0#8)) = some (0x08#8, 0#8, some 0x00001#20, 0) := by decide
theorem test_tglpin_complements :
    seen (exec (.tglpin 5) (idleWith 0xF7#8 0xFF#8)) = some (0xD7#8, 0xFF#8, some 0x00000#20, 1) := by decide
theorem test_tglpin_guarded :
    seen (exec (.tglpin 3) (idleWith 0#8 0#8)) = some (0#8, 0#8, some 0x30000#20, 0) := by decide
theorem test_encb_21 : (encodeByte none 21#8 (idleWith 0#8 0#8)).buf = [0#1, 0#1, 0#1, 1#1, 0#1, 1#1, 0#1, 1#1] := by decide
theorem test_encb_full :
    encodeByte (some 8) 0x55#8 (encodeByte (some 8) 0#8 (idleWith 0#8 0#8)) =
      { encodeByte (some 8) 0#8 (idleWith 0#8 0#8) with resp := some 0x60000#20 } := by decide
theorem test_send_starts : seen (exec .send (idleWith 0x08#8 0x28#8)) = some (0x08#8, 0x28#8, none, 0) := by decide
theorem test_render_packs : seen (exec .render (idleWith 0xD7#8 0xFF#8)) = some (0xD7#8, 0xFF#8, some 0x0D7FF#20, 0) := by decide
theorem test_render_strings : bitString 0x08#8 = "00001000".toList ∧ bitString 0x28#8 = "00101000".toList := by decide

/-! ### Micro-steps: the vectors of section 2.6 -/

/-- A configuration with the given roles. -/
def roles (dataPin clockPin : Byte) : Config :=
  { clockPin := clockPin, dataPin := dataPin, tickMsLessOne := 49, settleTicks := 0, dataInit := .allZero,
    dirInit := .allZero, bufCapBytes := none }

/-- A block at a position of a session. -/
def atPos (p : SeqPos) (data dir : Byte) (buf : List Bit) (idx : Nat) : State :=
  { idleWith data dir with seq := p, buf := buf, idx := idx }

/-- What a micro-step leaves of the position, DATA, DIR, IDX and the response. -/
def moved (o : Host.Outcome State Fault Refusal) : Option (SeqPos × Byte × Byte × Nat × Option RespWord) :=
  match o with
  | .next t => some (t.seq, t.data, t.dir, t.idx, t.resp)
  | .fault _ => none
  | .refused _ => none

theorem test_iCfgData : moved (microStep (roles 3#8 5#8) (atPos .iCfgData 0#8 0#8 [] 0)) =
    some (.iCfgClock, 0#8, 0x08#8, 0, none) := by decide
theorem test_iCfgData_pin_8 : moved (microStep (roles 8#8 5#8) (atPos .iCfgData 0#8 0#8 [] 0)) =
    some (.aborted, 0#8, 0#8, 0, some 0x10000#20) := by decide
theorem test_iCfgClock_empty : moved (microStep (roles 3#8 5#8) (atPos .iCfgClock 0#8 0x08#8 [] 0)) =
    some (.done, 0#8, 0x28#8, 0, some 0#20) := by decide
theorem test_aToggle : moved (microStep (roles 3#8 5#8) (atPos .aToggle 0#8 0x28#8 [1#1] 0)) =
    some (.aTick, 0x20#8, 0x28#8, 0, none) := by decide
theorem test_tData : moved (microStep (roles 3#8 5#8) (atPos .tData 0x20#8 0x28#8 [1#1] 0)) =
    some (.tStrobe, 0x28#8, 0x28#8, 0, none) := by decide
theorem test_tStrobe : moved (microStep (roles 3#8 5#8) (atPos .tStrobe 0x28#8 0x28#8 [1#1] 0)) =
    some (.tReport, 0x08#8, 0x28#8, 0, none) := by decide
theorem test_tTick_next_byte : moved (microStep (roles 3#8 5#8) (atPos .tTick 0#8 0x28#8 (List.replicate 16 0#1) 7)) =
    some (.aToggle, 0#8, 0x28#8, 8, none) := by decide
theorem test_tTick_last_bit : moved (microStep (roles 3#8 5#8) (atPos .tTick 0#8 0x28#8 (List.replicate 8 0#1) 7)) =
    some (.done, 0#8, 0x28#8, 0, some 0#20) := by decide

/-! ### Steps, reset and the assembler form -/

theorem test_step_runs_presented_word :
    seen (step ((idleWith 0#8 0x08#8).withFetchWord 16 0x6301)) = some (0x08#8, 0x08#8, some 0#20, 1) := by decide
theorem test_step_answers_reserved_word :
    seen (step ((idleWith 0#8 0#8).withFetchWord 16 0)) = some (0#8, 0#8, some 0x50000#20, 0) := by decide
theorem test_step_aborted_is_stuck : seen (step (atPos .aborted 0#8 0#8 [] 0)) = none := by decide
theorem test_step_reset_leaves_aborted :
    (match step { atPos .aborted 0#8 0#8 [] 0 with host := [.resetAfter 0] } with
      | .next t => some t.seq
      | .fault _ => none
      | .refused _ => none) = some .idle := by decide
theorem test_assemble_examples :
    assembleLine? "RDBIT.DATA 3".toList = some [.rdbitData 3] ∧ assembleLine? "WRBIT.DIR 5, 1".toList = some [.wrbitDir 5 1] ∧
    assembleLine? "ENCB 0xFF".toList = some [.encb 0xFF#8] ∧ assembleLine? "SEND".toList = some [.send] ∧
    assembleLine? "OUTPUT 16".toList = none := by decide
theorem test_command_text :
    commandText false false (.wrbitDir 5 1) = "WRBIT.DIR 5, 1".toList ∧ commandText false true (.encb 0xFF#8) = "ENCB 0xff".toList ∧
    commandText true true .render = "RENDER".toList := by decide
theorem test_assemble_sendbytes :
    assemble? ["SENDBYTES 21, 0x25".toList] = some [0x9015#16, 0x9025#16, 0xA000#16] := by decide

/-! ### Values that meet the hypotheses of the statements -/

/-- A ready block with three outputs and one byte encoded. -/
def ready1 : State := { idleWith 0x08#8 0xA9#8 with buf := byteBits 0xA0#8 }

/-- A ready block that the host presents one word to. -/
def presents (w : CmdWord) : State := { ready1 with host := [.command w] }

theorem witness_DecodeOfEncodeIsTheCommand : (Instr.wrpin 15 255).wellFormed = true := by decide
theorem witness_EncodeOfDecodeIsTheWord : decode 0x6FFF#16 = .ok (.wrpin 15 255) := by decide
theorem witness_DecodeFollowsTheOpcodeMap :
    (⟨"WRPIN", 0xF000#16, 0x6000#16⟩ : OpcodeRow) ∈ opcodeTable ∧ 0x6301#16 &&& 0xF000#16 = 0x6000#16 := by decide
theorem witness_ReservedWordsExecuteNothing :
    (presents 0xA001#16).ready = true ∧ (presents 0xA001#16).host = [.command 0xA001#16] ∧
      decode 0xA001#16 = .error .operandsNotZero := by decide
theorem witness_WriteThenReadWithoutDisturbance :
    (0 : Int) ≤ 7 ∧ (7 : Int) ≤ 7 ∧ ((1 : Int) = 0 ∨ (1 : Int) = 1) ∧ (0 : Int) ≠ 7 ∧ Reg.dir ≠ Reg.data := by decide
theorem witness_PrimitivesFailExactlyOutOfRange :
    ((-1 : Int) < 0 ∨ 7 < (-1 : Int)) ∧ ((8 : Int) < 0 ∨ 7 < (8 : Int)) ∧ ((0 : Int) ≤ 0 ∧ (0 : Int) ≤ 7) ∧
      ((0 : Int) ≤ 7 ∧ (7 : Int) ≤ 7) ∧ (2 : Int) ≠ 0 ∧ (2 : Int) ≠ 1 := by decide
theorem witness_TogglesOfAPinAlternate :
    (7 < 8 ∧ ready1.dir.getLsbD 7 = true) ∧ (0 < 8 ∧ ready1.dir.getLsbD 0 = true) := by decide
theorem witness_InternalConsistencyFaultNeverArises :
    readBit ready1 .data 3 = .ok 1#8 ∧ seen (exec (.tglpin 3) ready1) = some (0x00#8, 0xA9#8, some 0#20, 1) := by decide

/-- RDBIT.DATA, RDBIT.DIR, RDPIN and TGLPIN: both ends of each range of pins, and of the reserved VAL. -/
theorem witness_pin_formats :
    ready1.ready = true ∧ 0 < 16 ∧ 15 < 16 ∧ 7 < 8 ∧ 8 ≤ 8 ∧ 0 < 1 ∧ 1 < 256 ∧ 255 < 256 ∧
      (3 < 8 ∧ ready1.dir.getLsbD 3 = true) ∧ (1 < 8 ∧ ready1.dir.getLsbD 1 = false) := by decide
theorem witness_RdbitDataAnswersTheDataBit : ready1.ready = true ∧ 15 < 16 ∧ 0 < 255 ∧ 255 < 256 := by decide
theorem witness_RdbitDirAnswersTheDirBit : ready1.ready = true ∧ 7 < 16 ∧ 0 < 1 ∧ 1 < 256 := by decide
theorem witness_RdpinAnswersTheDataBit : ready1.ready = true ∧ 8 < 16 ∧ 0 < 1 ∧ 1 < 256 := by decide
theorem witness_WrbitDataWritesOneDataBit :
    ready1.ready = true ∧ (8 < 16 ∧ 8 ≤ 8) ∧ (7 < 8 ∧ 2 ≤ 2 ∧ 255 < 256) ∧ (0 < 8 ∧ 1 < 2) := by decide
theorem witness_WrbitDirWritesOneDirBit :
    ready1.ready = true ∧ (15 < 16 ∧ 8 ≤ 15) ∧ (0 < 8 ∧ 2 ≤ 255 ∧ 255 < 256) ∧ (7 < 8 ∧ 0 < 2) := by decide
theorem witness_CfgdirSetsOneDirection :
    ready1.ready = true ∧ (8 < 16 ∧ 8 ≤ 8) ∧ (7 < 8 ∧ 2 ≤ 2 ∧ 2 < 256) ∧ (0 < 8 ∧ 1 < 2) := by decide
theorem witness_WrpinWritesAnOutputPin :
    ready1.ready = true ∧ (8 < 16 ∧ 8 ≤ 8 ∧ 255 < 256) ∧ (1 < 8 ∧ ready1.dir.getLsbD 1 = false) ∧
      (7 < 8 ∧ ready1.dir.getLsbD 7 = true ∧ 2 ≤ 2) ∧ (0 < 8 ∧ ready1.dir.getLsbD 0 = true ∧ 1 < 2) := by decide
theorem witness_TglpinComplementsAnOutputPin :
    ready1.ready = true ∧ (8 < 16 ∧ 8 ≤ 8) ∧ (6 < 8 ∧ ready1.dir.getLsbD 6 = false) ∧
      (7 < 8 ∧ ready1.dir.getLsbD 7 = true) := by decide
theorem witness_EncbAppendsTheByteOrIsFull :
    ready1.ready = true ∧ (15 < ready1.buf.length + 8) ∧ (ready1.buf.length + 8 ≤ 16) ∧ 0 < 15 ∧ 15 < 16 := by decide
theorem witness_SendStartsASession :
    (ready1.seq = .idle ∨ ready1.seq = .done) ∧ 0 < 1 ∧ 1 < 4096 ∧ 4095 < 4096 := by decide
theorem witness_RenderAnswersBothRegisters : ready1.ready = true ∧ 0 < 4095 ∧ 4095 < 4096 ∧ 7 < 8 := by decide
theorem witness_CommandsCompleteExactlyWhileReady :
    ready1.seq = .idle ∧ (atPos .aborted 0#8 0#8 [] 0).seq ≠ .idle ∧ (atPos .aborted 0#8 0#8 [] 0).seq ≠ .done := by decide
theorem witness_FailedCommandsChangeNothing :
    exec (.wrpin 1 1) ready1 = .next { ready1 with resp := some 0x30000#20 } ∧ Status.pinNotConfigured ≠ .ok ∧
      some 0x30000#20 = some (respWord .pinNotConfigured 0#16) := ⟨rfl, by decide, by decide⟩
theorem witness_HiddenStateIsNotReadable :
    (idleWith 0x08#8 0xA9#8).data = ready1.data ∧ (idleWith 0x08#8 0xA9#8).dir = ready1.dir ∧
      (idleWith 0x08#8 0xA9#8).ready = true ∧ Instr.render ≠ .send ∧ (∀ b, Instr.render ≠ .encb b) ∧
      exec .render ready1 = .next { ready1 with resp := some 0x008A9#20 } :=
  ⟨by decide, by decide, by decide, by decide, (by intro b h; cases h), rfl⟩

theorem witness_ReportStepsShowTheRegisters :
    (atPos .iReport 0#8 0#8 [] 0).seq = .iReport ∧ (atPos .tReport 0#8 0#8 [1#1] 0).seq = .tReport ∧
      moved (microStep (roles 3#8 5#8) (atPos .aTick 0#8 0#8 [1#1] 0)) = some (.tData, 0#8, 0#8, 0, none) := by decide
theorem witness_SettleEmitsItsTicksAndMovesOn :
    { atPos .iSettle 0#8 0#8 [] 0 with settleCnt := 2 }.seq = .iSettle ∧
      2 ≤ { atPos .iSettle 0#8 0#8 [] 0 with settleCnt := 2 }.settleCnt := by decide
theorem witness_DataLineIsConfiguredOrAborts :
    (atPos .iCfgData 0#8 0#8 [] 0).seq = .iCfgData ∧ 7 < (roles 8#8 5#8).dataPin.toNat ∧ (roles 7#8 5#8).dataPin.toNat < 8 := by
  decide
theorem witness_ClockIsConfiguredOrAborts :
    (atPos .iCfgClock 0#8 8#8 [] 0).seq = .iCfgClock ∧ 7 < (roles 3#8 8#8).clockPin.toNat ∧
      (roles 3#8 7#8).clockPin.toNat < 8 ∧ (atPos .iCfgClock 0#8 8#8 [] 0).buf = [] ∧
      (atPos .iCfgClock 0#8 8#8 [1#1] 0).buf ≠ [] := by decide
theorem witness_ClockStepsComplementClock :
    ((atPos .aToggle 0#8 0x28#8 [1#1] 0).seq = .aToggle ∧ (atPos .tStrobe 0#8 0x28#8 [1#1] 0).seq = .tStrobe) ∧
      ((roles 3#8 5#8).clockPin.toNat < 8 ∧ (0x28#8).getLsbD (roles 3#8 5#8).clockPin.toNat = true) ∧
      7 < (roles 3#8 8#8).clockPin.toNat ∧
      ((roles 3#8 7#8).clockPin.toNat < 8 ∧ (0x28#8).getLsbD (roles 3#8 7#8).clockPin.toNat = false) := by decide
theorem witness_DataStepWritesTheBit :
    (atPos .tData 0#8 0x28#8 [1#1] 0).seq = .tData ∧
      (atPos .tData 0#8 0x28#8 [1#1] 0).buf[(atPos .tData 0#8 0x28#8 [1#1] 0).idx]? = some 1#1 ∧
      ((roles 3#8 5#8).dataPin.toNat < 8 ∧ (0x28#8).getLsbD (roles 3#8 5#8).dataPin.toNat = true) ∧
      7 < (roles 8#8 5#8).dataPin.toNat ∧
      ((roles 7#8 5#8).dataPin.toNat < 8 ∧ (0x28#8).getLsbD (roles 7#8 5#8).dataPin.toNat = false) := by decide
theorem witness_TickStepsMoveOn :
    (atPos .aTick 0#8 0x28#8 [1#1] 0).seq = .aTick ∧
      ((atPos .tTick 0#8 0x28#8 (List.replicate 8 0#1) 7).seq = .tTick ∧ (List.replicate 8 0#1).length ≤ 7 + 1) ∧
      (7 + 1 < (List.replicate 9 0#1).length ∧ (7 + 1) % 8 = 0) ∧
      (6 + 1 < (List.replicate 8 0#1).length ∧ (6 + 1) % 8 ≠ 0) := by decide

/-- One bit to send, and distinct pins in range: ten micro-steps reach DONE. -/
theorem witness_sessions_that_reach_done :
    (roles 3#8 5#8).dataPin.toNat < 8 ∧ (roles 3#8 5#8).clockPin.toNat < 8 ∧ (roles 3#8 5#8).dataPin ≠ (roles 3#8 5#8).clockPin ∧
      ∃ t, microSteps (roles 3#8 5#8) 10 ({ ready1 with buf := [1#1] }.startSession (roles 3#8 5#8)) = .next t ∧ t.seq = .done :=
  ⟨by decide, by decide, by decide, _, rfl, rfl⟩
theorem witness_SessionsReachDone : (roles 0#8 7#8).dataPin.toNat < 8 ∧ (roles 0#8 7#8).clockPin.toNat < 8 := by decide
theorem witness_SessionsAbortOnlyOnABadPin :
    (7 < (roles 8#8 5#8).dataPin.toNat ∨ 7 < (roles 8#8 5#8).clockPin.toNat) ∧
      (∃ t, microSteps (roles 8#8 5#8) 3 (ready1.startSession (roles 8#8 5#8)) = .next t ∧ t.seq = .aborted) ∧
      (∃ t, microSteps (roles 3#8 9#8) 4 (ready1.startSession (roles 3#8 9#8)) = .next t ∧ t.seq = .aborted) :=
  ⟨by decide, ⟨_, rfl, rfl⟩, ⟨_, rfl, rfl⟩⟩
theorem witness_SessionTraceHasTheOrderOfTheBits :
    (roles 3#8 5#8).dataPin.toNat < 8 ∧ (roles 3#8 5#8).clockPin.toNat < 8 ∧
      (∃ t, microSteps (roles 3#8 5#8) 10 ({ ready1 with buf := [1#1] }.startSession (roles 3#8 5#8)) = .next t ∧ t.seq = .done) ∧
      { ready1 with buf := [1#1] }.buf[0]? = some 1#1 :=
  ⟨by decide, by decide, ⟨_, rfl, rfl⟩, by decide⟩
theorem witness_SessionEventsAreCounted :
    (roles 3#8 5#8).dataPin.toNat < 8 ∧ (roles 3#8 5#8).clockPin.toNat < 8 ∧ (roles 3#8 5#8).dataPin ≠ (roles 3#8 5#8).clockPin ∧
      ∃ t, microSteps (roles 3#8 5#8) 10 ({ ready1 with buf := [1#1] }.startSession (roles 3#8 5#8)) = .next t ∧ t.seq = .done :=
  witness_sessions_that_reach_done
theorem witness_DataLineCarriesTheBuffer :
    ((roles 3#8 5#8).dataPin.toNat < 8 ∧ (roles 3#8 5#8).clockPin.toNat < 8 ∧
      (roles 3#8 5#8).dataPin ≠ (roles 3#8 5#8).clockPin ∧
      ∃ t, microSteps (roles 3#8 5#8) 10 ({ ready1 with buf := [1#1] }.startSession (roles 3#8 5#8)) = .next t ∧ t.seq = .done) ∧
      7 < 8 ∧ 7 ≠ (roles 3#8 5#8).dataPin.toNat ∧ 7 ≠ (roles 3#8 5#8).clockPin.toNat :=
  ⟨witness_sessions_that_reach_done, by decide, by decide, by decide⟩
theorem witness_EmptyBufferSessionOnlyConfigures :
    (roles 3#8 5#8).dataPin.toNat < 8 ∧ (roles 3#8 5#8).clockPin.toNat < 8 ∧ (idleWith 0xFF#8 0xFF#8).buf = [] := by decide
theorem witness_SharedPinEndsAtTheComplement :
    (roles 3#8 3#8).dataPin.toNat < 8 ∧ (roles 3#8 3#8).clockPin = (roles 3#8 3#8).dataPin ∧
      { ready1 with buf := [1#1] }.buf.getLast? = some 1#1 ∧
      ∃ t, microSteps (roles 3#8 3#8) 10 ({ ready1 with buf := [1#1] }.startSession (roles 3#8 3#8)) = .next t ∧ t.seq = .done :=
  ⟨by decide, by decide, by decide, _, rfl, rfl⟩
theorem witness_EncodedBytesFillTheBuffer :
    7 < ready1.buf.length ∧ [21#8, 37#8][1]? = some 37#8 ∧ 0 < 8 ∧ 7 < 8 := by decide

theorem witness_StepRunsTheDecodedCommand :
    (presents 0xB000#16).ready = true ∧ (presents 0xB000#16).host = [.command 0xB000#16] ∧ decode 0xB000#16 = .ok .render := by
  decide
theorem witness_OneAgentStepsAtATime :
    onlyCommands [.command 0xB000#16] = true ∧ (atPos .aTick 0#8 0x28#8 [1#1] 0).seq.agent = .sequencer ∧
      (ready1.ready = true ∧ ready1.host = []) ∧ (atPos .aborted 0#8 0#8 [] 0).seq = .aborted := by decide

/-- A ready block with nothing encoded has the invariant, for every configuration. -/
theorem idleWith_inv (c : Config) (data dir : Byte) : Inv c (idleWith data dir) := by
  constructor <;> simp [idleWith, SeqPos.inBits, SeqPos.fsm, SeqPos.agent]
  unfold overCap
  split <;> simp

theorem witness_ResetArrivesFromEveryState :
    Inv Config.block { idleWith 0x08#8 0x28#8 with host := [.resetAfter 3] } ∧
      { idleWith 0x08#8 0x28#8 with host := [.resetAfter 3] }.host = [.resetAfter 3] :=
  ⟨by have h := idleWith_inv Config.block 0x08#8 0x28#8; cases h; constructor <;> assumption, rfl⟩
theorem witness_OnlyResetLeavesAborted :
    (atPos .aborted 0#8 0#8 [] 0).seq = .aborted ∧
      (∃ t, step { atPos .aborted 0#8 0#8 [] 0 with host := [.resetAfter 0] } = .next t) ∧
      (∃ t, step { atPos .aborted 0#8 0#8 [] 0 with host := [.resetAfter 1] } = .next t) :=
  ⟨by decide, ⟨_, rfl⟩, ⟨_, rfl⟩⟩
theorem witness_EveryStepKeepsTheInvariant :
    Inv Config.block (idleWith 0x08#8 0x28#8) ∧ ∃ t, step (idleWith 0x08#8 0x28#8) = .next t :=
  ⟨idleWith_inv _ _ _, _, rfl⟩
theorem witness_OnlyAnAbortStopsTheMachine : Inv Config.block (idleWith 0x08#8 0x28#8) := idleWith_inv _ _ _
theorem witness_AStepChangesAtMostOneBit :
    (presents 0x3701#16).resetNow = false ∧ seen (step (presents 0x3701#16)) = some (0x88#8, 0xA9#8, some 0#20, 1) ∧
      (presents 0x3701#16).bitTarget? = some (.data, 7) ∧
      (presents 0xB000#16).resetNow = false ∧ seen (step (presents 0xB000#16)) = some (0x08#8, 0xA9#8, some 0x008A9#20, 0) := by
  decide
theorem witness_InputPinsKeepTheirDataBit :
    1 < 8 ∧ (presents 0x3101#16).resetNow = false ∧ (presents 0x3101#16).dir.getLsbD 1 = false ∧
      seen (step (presents 0x3101#16)) = some (0x0A#8, 0xA9#8, some 0#20, 1) ∧
      (0x0A#8).getLsbD 1 ≠ (presents 0x3101#16).data.getLsbD 1 := by decide
theorem witness_TraceReconstructsTheRegisters :
    replay (State.reset.data, State.reset.dir) State.reset.trace = some (State.reset.data, State.reset.dir) ∧
      ∃ t, step (State.reset.withFetchWord 16 0x3301) = .next t := ⟨rfl, _, rfl⟩
theorem witness_TraceAndResponseAreNeverRead :
    (presents 0xB000#16).resetNow = false ∧
      seen (step (presents 0xB000#16)) = some (0x08#8, 0xA9#8, some 0x008A9#20, 0) := by decide
theorem witness_BufferChangesOnlyByEncbAndDone :
    (presents 0xB000#16).resetNow = false ∧ ∃ t, step (presents 0xB000#16) = .next t := ⟨by decide, _, rfl⟩
theorem witness_StepsFollowTheStateGraph :
    ((presents 0xA000#16).resetNow = false ∧ (presents 0xA000#16).seq.agent = .host ∧ ∃ t, step (presents 0xA000#16) = .next t) ∧
      ((∀ rest, (presents 0xB000#16).host ≠ .command 0xA000#16 :: rest) ∧ ∃ t, step (presents 0xB000#16) = .next t) ∧
      ((atPos .aTick 0#8 0x28#8 [1#1] 0).seq.agent = .sequencer ∧ ∃ t, step (atPos .aTick 0#8 0x28#8 [1#1] 0) = .next t) ∧
      ({ atPos .aborted 0#8 0#8 [] 0 with host := [.resetAfter 1] }.seq.agent = .nobody ∧
        ∃ t, step { atPos .aborted 0#8 0#8 [] 0 with host := [.resetAfter 1] } = .next t) :=
  ⟨⟨by decide, by decide, _, rfl⟩, ⟨by intro rest h; simp [presents] at h, _, rfl⟩, ⟨by decide, _, rfl⟩, by decide, _, rfl⟩
theorem witness_IssuedSendRunsTheWholeSession :
    { presents 0#16 with host := [.command 0xA000#16, .command 0xB000#16] }.ready = true ∧
      onlyCommands [.command 0xB000#16] = true := by decide
theorem witness_SendbytesRunsEndToEnd :
    { ready1 with host := presented (expand (.sendbytes [21#8, 37#8])) }.ready = true ∧
      presented (expand (.sendbytes [21#8, 37#8])) = [.command 0x9015#16, .command 0x9025#16, .command 0xA000#16] := by decide
theorem witness_RenderedFormIsMostSignificantFirst : 0 < 8 ∧ 7 < 8 := by decide
theorem witness_AssembledLinesAreEncodable :
    255 < 256 ∧ [0, 255] ≠ ([] : List Nat) ∧ (∀ i ∈ [Instr.wrpin 15 255, .send], i.wellFormed = true) ∧
      assembleLine? "WRPIN 15, 255".toList = some [.wrpin 15 255] := by decide

end Sys2Proof.Tests
end

section
/-! The reset state (10_state.md R35): the value of each field, and the two bytes an initial value can stand for (R12). -/

namespace Sys2Proof

/-- "All-zero or all-one" and nothing else (R12): this is all that can be known of a register after reset, because the
parameters of the block are opaque. -/
theorem InitValue.byte_eq_zeros_or_ones (v : InitValue) : v.byte = 0x00#8 ∨ v.byte = 0xFF#8 := by
  cases v with
  | allZero => exact .inl rfl
  | allOne => exact .inr rfl

end Sys2Proof

namespace Sys2Proof.Machine

@[simp] theorem State.reset_data : State.reset.data = Config.block.dataInit.byte := rfl
@[simp] theorem State.reset_dir : State.reset.dir = Config.block.dirInit.byte := rfl
@[simp] theorem State.reset_buf : State.reset.buf = [] := rfl
@[simp] theorem State.reset_seq : State.reset.seq = .idle := rfl
@[simp] theorem State.reset_idx : State.reset.idx = 0 := rfl
@[simp] theorem State.reset_settleCnt : State.reset.settleCnt = 0 := rfl
@[simp] theorem State.reset_abortCode : State.reset.abortCode = .ok := rfl
@[simp] theorem State.reset_trace : State.reset.trace = [] := rfl

/-- Settles O43: each field by its lemma; a register is one of the two bytes because it is the byte of an `InitValue`. -/
theorem resetLeavesTheSpecifiedState : Obligations.ResetLeavesTheSpecifiedState := by
  have hdata : State.reset.data = 0x00#8 ∨ State.reset.data = 0xFF#8 :=
    Config.block.dataInit.byte_eq_zeros_or_ones
  have hdir : State.reset.dir = 0x00#8 ∨ State.reset.dir = 0xFF#8 :=
    Config.block.dirInit.byte_eq_zeros_or_ones
  exact ⟨State.reset_data, State.reset_dir, hdata, hdir, State.reset_buf, State.reset_seq, State.reset_idx,
    State.reset_settleCnt, State.reset_abortCode, State.reset_trace⟩

end Sys2Proof.Machine
end

section
/-! The encoding (30_encoding.md): the fields of a word as numbers (R70), the four formats (R71), a command read off the fields of
its word (R73, R74), the reserved words (R75), and the expansions of the pseudo-commands (R80). -/

namespace Sys2Proof

/-! ### The fields of a word -/

/-- OP is the top hexadecimal digit of the word (R70). -/
theorem opField_eq_div (w : CmdWord) : opField w = w.toNat / 4096 := by
  rw [opField, BitVec.extractLsb'_toNat, Nat.shiftRight_eq_div_pow]
  have := w.isLt
  omega

/-- PIN is the second hexadecimal digit of the word (R70). -/
theorem pinField_eq_div_mod (w : CmdWord) : pinField w = w.toNat / 256 % 16 := by
  rw [pinField, BitVec.extractLsb'_toNat, Nat.shiftRight_eq_div_pow]

/-- VAL is the low byte of the word (R70). -/
theorem valField_toNat_eq_mod (w : CmdWord) : (valField w).toNat = w.toNat % 256 := by
  rw [valField, BitVec.extractLsb'_toNat, Nat.shiftRight_zero]

/-! ### The formats -/

theorem formatP_of_val_zero {w : CmdWord} (hv : (valField w).toNat = 0) (mk : Nat → Instr) :
    formatP w mk = .ok (mk (pinField w)) :=
  if_pos (BitVec.eq_of_toNat_eq hv)

theorem formatV_of_pin_zero {w : CmdWord} (hp : pinField w = 0) (mk : Byte → Instr) :
    formatV w mk = .ok (mk (valField w)) :=
  if_pos hp

theorem formatZ_of_fields_zero {w : CmdWord} (hp : pinField w = 0) (hv : (valField w).toNat = 0) (i : Instr) :
    formatZ w i = .ok i :=
  if_pos ⟨hp, BitVec.eq_of_toNat_eq hv⟩

/-- A word of format P is reserved when its unused VAL is not zero (R71). -/
theorem formatP_reserved_iff (w : CmdWord) (mk : Nat → Instr) :
    (∃ e, formatP w mk = .error e) ↔ (valField w).toNat ≠ 0 := by
  unfold formatP
  split <;> simp_all [BitVec.toNat_eq]

/-- Format PV leaves no field unused (R71). -/
theorem formatPV_not_reserved (w : CmdWord) (mk : Nat → Nat → Instr) : ¬ ∃ e, formatPV w mk = .error e := by
  rintro ⟨e, he⟩
  cases he

/-- A word of format V is reserved when its unused PIN is not zero (R71). -/
theorem formatV_reserved_iff (w : CmdWord) (mk : Byte → Instr) :
    (∃ e, formatV w mk = .error e) ↔ pinField w ≠ 0 := by
  unfold formatV
  split <;> simp_all

/-- A word of format Z is reserved when PIN or VAL, both unused, is not zero (R71). -/
theorem formatZ_reserved_iff (w : CmdWord) (i : Instr) :
    (∃ e, formatZ w i = .error e) ↔ ¬ (pinField w = 0 ∧ (valField w).toNat = 0) := by
  unfold formatZ
  split <;> simp_all [BitVec.toNat_eq]

/-! ### Decoding what was encoded -/

/-- The word of every well-formed command carries the fields of its row of R73. -/
theorem fieldsCarryOperands (i : Instr) : Laws.FieldsCarryOperands.Statement i := by
  cases i with
  | rdbitData pin => exact Laws.FieldsCarryOperands.rdbitData pin
  | rdbitDir pin => exact Laws.FieldsCarryOperands.rdbitDir pin
  | wrbitData pin val => exact Laws.FieldsCarryOperands.wrbitData pin val
  | wrbitDir pin val => exact Laws.FieldsCarryOperands.wrbitDir pin val
  | cfgdir pin val => exact Laws.FieldsCarryOperands.cfgdir pin val
  | wrpin pin val => exact Laws.FieldsCarryOperands.wrpin pin val
  | rdpin pin => exact Laws.FieldsCarryOperands.rdpin pin
  | tglpin pin => exact Laws.FieldsCarryOperands.tglpin pin
  | encb b => exact Laws.FieldsCarryOperands.encb b
  | send => exact Laws.FieldsCarryOperands.send
  | render => exact Laws.FieldsCarryOperands.render

/-- The decoder looks at the three fields only: a word that has the fields of a command's row decodes to that command. -/
theorem decode_of_rowFields {w : CmdWord} {i : Instr}
    (h : (opField w, pinField w, (valField w).toNat) = Laws.rowFields i) : decode w = .ok i := by
  cases i <;> simp only [Laws.rowFields, Prod.mk.injEq] at h <;> obtain ⟨hop, hpin, hval⟩ := h <;>
    simp only [decode, hop]
  case rdbitData | rdbitDir | rdpin | tglpin => rw [formatP_of_val_zero hval, hpin]
  case wrbitData | wrbitDir | cfgdir | wrpin => rw [formatPV, hpin, hval]
  case encb b => rw [formatV_of_pin_zero hpin, BitVec.eq_of_toNat_eq hval]
  case send | render => exact formatZ_of_fields_zero hpin hval _

/-- Settles O1: the word carries the fields of its command's row, and the decoder reads the command off those fields. -/
theorem decodeOfEncodeIsTheCommand : Obligations.DecodeOfEncodeIsTheCommand :=
  fun i hwf => decode_of_rowFields (fieldsCarryOperands i hwf)

/-! ### The reserved words -/

/-- R75 over the three fields: the opcode has no row, or a field that the opcode's format does not use is not zero. -/
theorem decode_reserved_iff_fields (w : CmdWord) : (∃ e, decode w = .error e) ↔
    ((opField w = 0 ∨ 12 ≤ opField w) ∨
     ((opField w = 1 ∨ opField w = 2 ∨ opField w = 7 ∨ opField w = 8) ∧ (valField w).toNat ≠ 0) ∨
     (opField w = 9 ∧ pinField w ≠ 0) ∨
     ((opField w = 10 ∨ opField w = 11) ∧ ¬ (pinField w = 0 ∧ (valField w).toNat = 0))) := by
  unfold decode
  split
  case h_1 hop | h_2 hop | h_7 hop | h_8 hop =>
    rw [formatP_reserved_iff]
    omega
  case h_3 hop | h_4 hop | h_5 hop | h_6 hop =>
    refine iff_of_false (formatPV_not_reserved w _) ?_
    omega
  case h_9 hop =>
    rw [formatV_reserved_iff]
    omega
  case h_10 hop | h_11 hop =>
    rw [formatZ_reserved_iff]
    omega
  case h_12 =>
    have hop : opField w = 0 ∨ 12 ≤ opField w := by
      simp only [imp_false] at *
      omega
    exact iff_of_true ⟨_, rfl⟩ (.inl hop)

/-- R75 over the number of the word; `cmd[11:0]` is PIN and VAL together. -/
theorem decode_reserved_iff (w : CmdWord) : (∃ e, decode w = .error e) ↔
    ((w.toNat / 4096 = 0 ∨ 12 ≤ w.toNat / 4096) ∨
     ((w.toNat / 4096 = 1 ∨ w.toNat / 4096 = 2 ∨ w.toNat / 4096 = 7 ∨ w.toNat / 4096 = 8) ∧ w.toNat % 256 ≠ 0) ∨
     (w.toNat / 4096 = 9 ∧ w.toNat / 256 % 16 ≠ 0) ∨
     ((w.toNat / 4096 = 10 ∨ w.toNat / 4096 = 11) ∧ w.toNat % 4096 ≠ 0)) := by
  have hoperands : ¬ (w.toNat / 256 % 16 = 0 ∧ w.toNat % 256 = 0) ↔ w.toNat % 4096 ≠ 0 := by omega
  rw [decode_reserved_iff_fields, opField_eq_div, pinField_eq_div_mod, valField_toNat_eq_mod, hoperands]

namespace Machine

/-- A ready block takes the command that the host presents and runs its word (R81). -/
theorem step_of_presented_command {s : State} {w : CmdWord} {rest : List HostInput} (hr : s.ready = true)
    (hh : s.host = .command w :: rest) : step s = runCommand w (s.withHost rest) := by
  have hagent : s.seq.agent = .host := s.ready_iff_agent.1 hr
  simp only [step, hostTurn, hh, hagent]

/-- A reserved word is answered, and nothing is run (R75). -/
theorem runCommand_of_reserved {w : CmdWord} {e : Reserved} (s : State) (hd : decode w = .error e) :
    runCommand w s = .next (rejectCommand s) := by
  rw [runCommand, hd]

/-- The answer to a reserved word is the response (IllegalCommand, 0), with code 5, and nothing else (R72, R75). -/
theorem rejectCommand_eq (s : State) : rejectCommand s = { s with resp := some 0x50000#20 } := rfl

/-- Settles O4: the words refused are those of R75, and the step of a ready block that is given one is its rejection. -/
theorem reservedWordsExecuteNothing : Obligations.ReservedWordsExecuteNothing := by
  refine ⟨decode_reserved_iff, fun s w e rest hr hh hd => ?_⟩
  calc step s = runCommand w (s.withHost rest) := step_of_presented_command hr hh
    _ = .next (rejectCommand (s.withHost rest)) := runCommand_of_reserved _ hd
    _ = .next { s with host := rest, resp := some 0x50000#20 } := by rw [rejectCommand_eq]; rfl

/-! ### The pseudo-commands -/

theorem expand_sendbytes (bytes : List Byte) : expand (.sendbytes bytes) = bytes.map Instr.encb ++ [.send] := rfl
theorem expand_output (pin : Nat) : expand (.output pin) = [.cfgdir pin 1] := rfl
theorem expand_input (pin : Nat) : expand (.input pin) = [.cfgdir pin 0] := rfl

/-- Settles O58: one equation for each pseudo-command. -/
theorem pseudoCommandsExpand : Obligations.PseudoCommandsExpand :=
  ⟨expand_sendbytes, fun pin => ⟨expand_output pin, expand_input pin⟩⟩

end Machine

end Sys2Proof
end

section
/-! The Register and Bit Accessor (40_bit_accessor.md): the two primitives over every integer (R100, R101, R106, R107), the words of
the formats P and PV as sums (R71, R73), what a command that reads or writes one bit answers, and the four commands (R102 to R105). -/

namespace Sys2Proof

/-! ### The words of formats P and PV -/

theorem formatP_of_val_ne_zero {w : CmdWord} (hv : (valField w).toNat ≠ 0) (mk : Nat → Instr) :
    formatP w mk = .error .valNotZero :=
  if_neg fun h => hv (congrArg BitVec.toNat h)

/-- A word of one of the four opcodes of format P is reserved under that name when its VAL is not zero (R71, R75). -/
theorem decode_commandWord_valNotZero {op pin val : Nat} (hop : op = 1 ∨ op = 2 ∨ op = 7 ∨ op = 8) (hp : pin < 16)
    (hpos : 0 < val) (hv : val < 256) : decode (commandWord op pin val) = .error .valNotZero := by
  have hfield : opField (commandWord op pin val) = op := opField_commandWord (by omega) hp hv
  have hval : (valField (commandWord op pin val)).toNat ≠ 0 := by
    rw [valField_commandWord hv]
    omega
  rcases hop with rfl | rfl | rfl | rfl <;> simp only [decode, hfield, formatP_of_val_ne_zero hval]

@[simp] theorem pinEncodable_iff {pin : Nat} : pinEncodable pin = true ↔ pin < 16 := by simp [pinEncodable]
@[simp] theorem valEncodable_iff {val : Nat} : valEncodable val = true ↔ val < 256 := by simp [valEncodable]

theorem decode_of_encode_eq {i : Instr} {w : CmdWord} (hwf : i.wellFormed = true) (he : encode i = w) :
    decode w = .ok i :=
  he ▸ decodeOfEncodeIsTheCommand i hwf

theorem encode_rdbitData (p : Nat) : encode (.rdbitData p) = BitVec.ofNat 16 (0x1000 + p * 256) := rfl
theorem encode_rdbitDir (p : Nat) : encode (.rdbitDir p) = BitVec.ofNat 16 (0x2000 + p * 256) := rfl
theorem encode_wrbitData (p v : Nat) : encode (.wrbitData p v) = BitVec.ofNat 16 (0x3000 + p * 256 + v) := rfl
theorem encode_wrbitDir (p v : Nat) : encode (.wrbitDir p v) = BitVec.ofNat 16 (0x4000 + p * 256 + v) := rfl

end Sys2Proof

namespace Sys2Proof.Machine

/-! ### One bit of one register -/

@[simp] theorem State.emit_reg (s : State) (e : Event) (r : Reg) : (s.emit e).reg r = s.reg r := by cases r <;> rfl

/-- `write_bit` leaves the other register as it is (R106). -/
theorem State.putBit_reg_other (s : State) {r r' : Reg} (h : r' ≠ r) (p : Fin 8) (v : Bit) :
    (s.putBit r p v).reg r' = s.reg r' := by
  rw [State.putBit, State.emit_reg, s.setReg_reg_other h]

theorem State.putBit_getLsbD_same (s : State) (r : Reg) (p : Fin 8) (v : Bit) :
    ((s.putBit r p v).reg r).getLsbD p.val = decide (v = 1#1) := by
  rw [State.putBit_getLsbD, if_pos ⟨rfl, rfl⟩]

theorem State.putBit_getLsbD_other (s : State) (r : Reg) {p q : Fin 8} (h : q ≠ p) (v : Bit) :
    ((s.putBit r p v).reg r).getLsbD q.val = (s.reg r).getLsbD q.val := by
  rw [State.putBit_getLsbD, if_neg fun hrq => h hrq.2]

/-! ### The primitives, for every integer -/

theorem exists_pin_of_inRange {pin : Int} (h0 : 0 ≤ pin) (h7 : pin ≤ 7) : ∃ p : Fin 8, pin = (p.val : Int) :=
  ⟨⟨pin.toNat, by omega⟩, by simp only; omega⟩

theorem exists_bit_of_zero_or_one {value : Int} (h : value = 0 ∨ value = 1) : ∃ v : Bit, value = (v.toNat : Int) := by
  rcases h with rfl | rfl
  · exact ⟨0#1, rfl⟩
  · exact ⟨1#1, rfl⟩

theorem readBit_eq_invalidPin {pin : Int} (h : pin < 0 ∨ 7 < pin) (s : State) (r : Reg) :
    readBit s r pin = .error .invalidPin := by
  rw [readBit, pinIndex?_eq_none.2 h]

/-- The pin is checked before the value, so the value does not matter here (R101). -/
theorem writeBit_eq_invalidPin {pin : Int} (h : pin < 0 ∨ 7 < pin) (s : State) (r : Reg) (value : Int) :
    writeBit s r pin value = .error .invalidPin := by
  rw [writeBit, pinIndex?_eq_none.2 h]

theorem writeBit_eq_invalidValue {value : Int} (h0 : value ≠ 0) (h1 : value ≠ 1) (s : State) (r : Reg) (p : Fin 8) :
    writeBit s r (p.val : Int) value = .error .invalidValue := by
  simp only [writeBit, pinIndex?_val, bitValue?_eq_none.2 ⟨h0, h1⟩]

/-- Settles O8: each of the two range checks decides which outcome there is. -/
theorem primitivesFailExactlyOutOfRange : Obligations.PrimitivesFailExactlyOutOfRange := by
  intro s r pin value
  refine ⟨fun hout => ⟨readBit_eq_invalidPin hout s r, writeBit_eq_invalidPin hout s r value⟩, ?_, ?_, ?_⟩
  · intro h0 h7
    obtain ⟨p, rfl⟩ := exists_pin_of_inRange h0 h7
    exact ⟨_, readBit_val s r p⟩
  · intro h0 h7 hv0 hv1
    obtain ⟨p, rfl⟩ := exists_pin_of_inRange h0 h7
    exact writeBit_eq_invalidValue hv0 hv1 s r p
  · intro h0 h7 hv
    obtain ⟨p, rfl⟩ := exists_pin_of_inRange h0 h7
    obtain ⟨v, rfl⟩ := exists_bit_of_zero_or_one hv
    exact ⟨_, writeBit_val s r p v⟩

/-- The byte `read_bit` gives for a bit that `write_bit` was given as an integer (R100, R106). -/
theorem readByte_of_bit (v : Bit) : (bif decide (v = 1#1) then 1#8 else 0#8) = BitVec.ofInt 8 (v.toNat : Int) := by
  rcases bit_zero_or_one v with rfl | rfl <;> rfl

/-- Settles O7: the state after the write is `putBit`, of which each clause reads one bit or the other register. -/
theorem writeThenReadWithoutDisturbance : Obligations.WriteThenReadWithoutDisturbance := by
  intro s r pin value h0 h7 hv
  obtain ⟨p, rfl⟩ := exists_pin_of_inRange h0 h7
  obtain ⟨v, rfl⟩ := exists_bit_of_zero_or_one hv
  refine ⟨s.putBit r p v, writeBit_val s r p v, ?_, ?_, fun r' hr => s.putBit_reg_other hr p v⟩
  · rw [readBit_val, State.putBit_getLsbD_same, readByte_of_bit]
  · intro other hq0 hq7 hne
    obtain ⟨q, rfl⟩ := exists_pin_of_inRange hq0 hq7
    have hqp : q ≠ p := fun h => hne (by rw [h])
    rw [readBit_val, readBit_val, State.putBit_getLsbD_other s r hqp]

/-! ### Operands of a command: a pin from 8 on, a value from 2 on -/

theorem readBit_pinArg_of_lt (s : State) (r : Reg) {p : Nat} (hp : p < 8) :
    readBit s r (pinArg p) = .ok (bif (s.reg r).getLsbD p then 1#8 else 0#8) :=
  readBit_val s r ⟨p, hp⟩

theorem pinArg_outOfRange {p : Nat} (hp : 8 ≤ p) : pinArg p < 0 ∨ 7 < pinArg p := by
  unfold pinArg
  omega

theorem valArg_eq_toNat {v : Nat} (hv : v < 2) : valArg v = ((BitVec.ofNat 1 v).toNat : Int) := by
  rw [valArg, BitVec.toNat_ofNat, Nat.mod_eq_of_lt hv]

theorem writeBit_args_of_lt (s : State) (r : Reg) {p v : Nat} (hp : p < 8) (hv : v < 2) :
    writeBit s r (pinArg p) (valArg v) = .ok (s.putBit r ⟨p, hp⟩ (BitVec.ofNat 1 v)) := by
  rw [valArg_eq_toNat hv]
  exact writeBit_val s r ⟨p, hp⟩ _

theorem writeBit_args_of_val_ge (s : State) (r : Reg) {p v : Nat} (hp : p < 8) (hv : 2 ≤ v) :
    writeBit s r (pinArg p) (valArg v) = .error .invalidValue :=
  writeBit_eq_invalidValue (by unfold valArg; omega) (by unfold valArg; omega) s r ⟨p, hp⟩

/-- The register after the write of a value operand, bit by bit. -/
theorem State.putBit_ofNat_getLsbD (s : State) (r : Reg) {p q v : Nat} (hp : p < 8) (hq : q < 8) (hv : v < 2) :
    ((s.putBit r ⟨p, hp⟩ (BitVec.ofNat 1 v)).reg r).getLsbD q =
      if q = p then decide (v = 1) else (s.reg r).getLsbD q := by
  have hval : BitVec.ofNat 1 v = 1#1 ↔ v = 1 := by
    rw [← BitVec.toNat_inj, BitVec.toNat_ofNat, Nat.mod_eq_of_lt hv]
    rfl
  split
  case isTrue h =>
    subst h
    rw [s.putBit_getLsbD_same r ⟨q, hp⟩, decide_eq_decide]
    exact hval
  case isFalse h => exact s.putBit_getLsbD_other r (q := ⟨q, hq⟩) (fun hqp => h (congrArg Fin.val hqp)) _

/-! ### What a command on one bit answers -/

theorem State.respond_ok_zero (s : State) : s.respond .ok 0#16 = { s with resp := some 0x00000#20 } := rfl
theorem State.respond_ok_one (s : State) : s.respond .ok 1#16 = { s with resp := some 0x00001#20 } := rfl
theorem State.respond_invalidPin (s : State) : s.respond .invalidPin 0#16 = { s with resp := some 0x10000#20 } := rfl
theorem State.respond_invalidValue (s : State) : s.respond .invalidValue 0#16 = { s with resp := some 0x20000#20 } := rfl

/-- The end of a command that reads the bit of a pin operand: (Ok, the bit), or (InvalidPin, 0), and nothing else changes. -/
theorem completeRead_readBit (s : State) (r : Reg) (p : Nat) :
    completeRead s (readBit s r (pinArg p)) = { s with
      resp := some (if p < 8 then (if (s.reg r).getLsbD p then 0x00001#20 else 0x00000#20) else 0x10000#20) } := by
  split
  case isTrue hp =>
    rw [readBit_pinArg_of_lt s r hp, completeRead_ok]
    cases (s.reg r).getLsbD p with
    | false => exact s.respond_ok_zero
    | true => exact s.respond_ok_one
  case isFalse hp =>
    rw [readBit_eq_invalidPin (pinArg_outOfRange (Nat.le_of_not_lt hp)), completeRead_error, State.respond_invalidPin]

theorem completeWrite_writeBit_of_pin_ge (s : State) (r : Reg) {p : Nat} (hp : 8 ≤ p) (v : Nat) :
    completeWrite s (writeBit s r (pinArg p) (valArg v)) = { s with resp := some 0x10000#20 } := by
  rw [writeBit_eq_invalidPin (pinArg_outOfRange hp), completeWrite_error, State.respond_invalidPin]

theorem completeWrite_writeBit_of_val_ge (s : State) (r : Reg) {p v : Nat} (hp : p < 8) (hv : 2 ≤ v) :
    completeWrite s (writeBit s r (pinArg p) (valArg v)) = { s with resp := some 0x20000#20 } := by
  rw [writeBit_args_of_val_ge s r hp hv, completeWrite_error, State.respond_invalidValue]

theorem completeWrite_writeBit_data (s : State) {p v : Nat} (hp : p < 8) (hv : v < 2) :
    completeWrite s (writeBit s .data (pinArg p) (valArg v)) = { s with
      data := (s.putBit .data ⟨p, hp⟩ (BitVec.ofNat 1 v)).data,
      trace := s.trace ++ [.write .data ⟨p, hp⟩ (BitVec.ofNat 1 v)], resp := some 0x00000#20 } := by
  rw [writeBit_args_of_lt s .data hp hv, completeWrite_ok, State.respond_ok_zero]
  rfl

theorem completeWrite_writeBit_dir (s : State) {p v : Nat} (hp : p < 8) (hv : v < 2) :
    completeWrite s (writeBit s .dir (pinArg p) (valArg v)) = { s with
      dir := (s.putBit .dir ⟨p, hp⟩ (BitVec.ofNat 1 v)).dir,
      trace := s.trace ++ [.write .dir ⟨p, hp⟩ (BitVec.ofNat 1 v)], resp := some 0x00000#20 } := by
  rw [writeBit_args_of_lt s .dir hp hv, completeWrite_ok, State.respond_ok_zero]
  rfl

/-! ### The four commands -/

section Ready

variable {s : State} (hr : s.ready = true)
include hr

theorem exec_rdbitData_of_ready (p : Nat) :
    exec (.rdbitData p) s = .next (completeRead s (readBit s .data (pinArg p))) := whenReady_of_ready hr
theorem exec_rdbitDir_of_ready (p : Nat) :
    exec (.rdbitDir p) s = .next (completeRead s (readBit s .dir (pinArg p))) := whenReady_of_ready hr
theorem exec_wrbitData_of_ready (p v : Nat) :
    exec (.wrbitData p v) s = .next (completeWrite s (writeBit s .data (pinArg p) (valArg v))) := whenReady_of_ready hr
theorem exec_wrbitDir_of_ready (p v : Nat) :
    exec (.wrbitDir p v) s = .next (completeWrite s (writeBit s .dir (pinArg p) (valArg v))) := whenReady_of_ready hr

end Ready

/-- WRBIT.DIR and CFGDIR are the same write of DIR: `configure_direction` adds no check (R105, R120). -/
theorem exec_wrbitDir_eq_cfgdir (p v : Nat) (s : State) : exec (.wrbitDir p v) s = exec (.cfgdir p v) s := rfl

/-- Settles O11: the word by its format, the answer by `completeRead_readBit` at DATA. -/
theorem rdbitDataAnswersTheDataBit : Obligations.RdbitDataAnswersTheDataBit := by
  intro s p hr hp
  refine ⟨encode_rdbitData p, decode_of_encode_eq (pinEncodable_iff.2 hp) (encode_rdbitData p),
    fun v => decode_commandWord_valNotZero (op := 1) (by decide) hp, ?_⟩
  rw [exec_rdbitData_of_ready hr, completeRead_readBit, State.reg_data]

/-- Settles O12: the word by its format, the answer by `completeRead_readBit` at DIR. -/
theorem rdbitDirAnswersTheDirBit : Obligations.RdbitDirAnswersTheDirBit := by
  intro s p hr hp
  refine ⟨encode_rdbitDir p, decode_of_encode_eq (pinEncodable_iff.2 hp) (encode_rdbitDir p),
    fun v => decode_commandWord_valNotZero (op := 2) (by decide) hp, ?_⟩
  rw [exec_rdbitDir_of_ready hr, completeRead_readBit, State.reg_dir]

/-- Settles O14: one clause per outcome of the two range checks; the byte written is that of `putBit` at DATA. -/
theorem wrbitDataWritesOneDataBit : Obligations.WrbitDataWritesOneDataBit := by
  intro s p v hr hp hv
  have hwf : (Instr.wrbitData p v).wellFormed = true :=
    Bool.and_eq_true_iff.2 ⟨pinEncodable_iff.2 hp, valEncodable_iff.2 hv⟩
  rw [exec_wrbitData_of_ready hr]
  refine ⟨encode_wrbitData p v, decode_of_encode_eq hwf (encode_wrbitData p v), fun hp8 => ?_, fun hp8 hv2 => ?_,
    fun hp8 hv2 => ⟨_, ?_, fun q hq => s.putBit_ofNat_getLsbD .data hp8 hq hv2⟩⟩
  · exact congrArg Host.Outcome.next (completeWrite_writeBit_of_pin_ge s .data hp8 v)
  · exact congrArg Host.Outcome.next (completeWrite_writeBit_of_val_ge s .data hp8 hv2)
  · exact congrArg Host.Outcome.next (completeWrite_writeBit_data s hp8 hv2)

/-- Settles O15: as WRBIT.DATA, with the byte of `putBit` at DIR; CFGDIR is the same write. -/
theorem wrbitDirWritesOneDirBit : Obligations.WrbitDirWritesOneDirBit := by
  intro s p v hr hp hv
  have hwf : (Instr.wrbitDir p v).wellFormed = true :=
    Bool.and_eq_true_iff.2 ⟨pinEncodable_iff.2 hp, valEncodable_iff.2 hv⟩
  rw [← exec_wrbitDir_eq_cfgdir, exec_wrbitDir_of_ready hr]
  refine ⟨encode_wrbitDir p v, decode_of_encode_eq hwf (encode_wrbitDir p v), fun hp8 => ?_, fun hp8 hv2 => ?_,
    fun hp8 hv2 => ⟨_, ?_, fun q hq => s.putBit_ofNat_getLsbD .dir hp8 hq hv2⟩, rfl⟩
  · exact congrArg Host.Outcome.next (completeWrite_writeBit_of_pin_ge s .dir hp8 v)
  · exact congrArg Host.Outcome.next (completeWrite_writeBit_of_val_ge s .dir hp8 hv2)
  · exact congrArg Host.Outcome.next (completeWrite_writeBit_dir s hp8 hv2)

end Sys2Proof.Machine
end

section
/-! The Port Controller (41_port_controller.md): `write_pin` and `toggle_pin` at a pin operand (R121, R123), the four commands (R124 to
R127), and repeated toggles (R128). -/

namespace Sys2Proof

theorem encode_cfgdir (p v : Nat) : encode (.cfgdir p v) = BitVec.ofNat 16 (0x5000 + p * 256 + v) := rfl
theorem encode_wrpin (p v : Nat) : encode (.wrpin p v) = BitVec.ofNat 16 (0x6000 + p * 256 + v) := rfl
theorem encode_rdpin (p : Nat) : encode (.rdpin p) = BitVec.ofNat 16 (0x7000 + p * 256) := rfl
theorem encode_tglpin (p : Nat) : encode (.tglpin p) = BitVec.ofNat 16 (0x8000 + p * 256) := rfl

end Sys2Proof

namespace Sys2Proof.Machine

/-! ### `write_pin` at a pin operand -/

theorem writePin_of_pin_ge (s : State) {p : Nat} (hp : 8 ≤ p) (value : Int) :
    writePin s (pinArg p) value = .error .invalidPin := by
  rw [writePin, readBit_eq_invalidPin (pinArg_outOfRange hp)]

/-- An input pin is refused before the value is looked at (R121, R125). -/
theorem writePin_of_input {s : State} {p : Nat} (hp : p < 8) (hd : s.dir.getLsbD p = false) (value : Int) :
    writePin s (pinArg p) value = .error .pinNotConfigured := by
  rw [writePin, readBit_pinArg_of_lt s .dir hp, State.reg_dir, hd]
  rfl

/-- At an output pin the guard passes, and `write_pin` is `write_bit` on DATA (R121). -/
theorem writePin_of_output {s : State} {p : Nat} (hp : p < 8) (hd : s.dir.getLsbD p = true) (value : Int) :
    writePin s (pinArg p) value = writeBit s .data (pinArg p) value := by
  rw [writePin, readBit_pinArg_of_lt s .dir hp, State.reg_dir, hd]
  rfl

/-! ### `toggle_pin` at a pin operand -/

theorem togglePin_of_pin_ge (s : State) {p : Nat} (hp : 8 ≤ p) : togglePin s (pinArg p) = .error .invalidPin := by
  rw [togglePin, readPin, readBit_eq_invalidPin (pinArg_outOfRange hp)]

/-- In range, `toggle_pin` is `write_pin` of the complement: the bit read is 0 or 1, so the arm of InternalConsistencyFault is
dead (R123, R129). -/
theorem togglePin_eq_writePin (s : State) {p : Nat} (hp : p < 8) :
    togglePin s (pinArg p) = writePin s (pinArg p) (valArg (!s.data.getLsbD p).toNat) := by
  rw [togglePin, readPin, readBit_pinArg_of_lt s .data hp, State.reg_data]
  cases s.data.getLsbD p <;> rfl

theorem togglePin_of_input {s : State} {p : Nat} (hp : p < 8) (hd : s.dir.getLsbD p = false) :
    togglePin s (pinArg p) = .error .pinNotConfigured := by
  rw [togglePin_eq_writePin s hp, writePin_of_input hp hd]

/-- The state after a toggle of an output pin (R123). -/
def State.toggled (s : State) (p : Fin 8) : State := s.putBit .data p (BitVec.ofBool (!s.data.getLsbD p.val))

theorem togglePin_of_output {s : State} {p : Nat} (hp : p < 8) (hd : s.dir.getLsbD p = true) :
    togglePin s (pinArg p) = .ok (s.toggled ⟨p, hp⟩) := by
  have hbit : BitVec.ofNat 1 (!s.data.getLsbD p).toNat = BitVec.ofBool (!s.data.getLsbD p) := by
    cases s.data.getLsbD p <;> rfl
  rw [togglePin_eq_writePin s hp, writePin_of_output hp hd, writeBit_args_of_lt s .data hp (Bool.toNat_lt _), hbit]
  rfl

@[simp] theorem State.toggled_dir (s : State) (p : Fin 8) : (s.toggled p).dir = s.dir := s.putBit_data_dir p _

/-- A toggle complements the bit of its pin and leaves every other bit of DATA (R123). -/
theorem State.toggled_data_getLsbD (s : State) {p q : Nat} (hp : p < 8) (hq : q < 8) :
    (s.toggled ⟨p, hp⟩).data.getLsbD q = if q = p then !s.data.getLsbD q else s.data.getLsbD q := by
  split
  case isTrue h =>
    subst h
    refine (s.putBit_getLsbD_same .data ⟨q, hp⟩ _).trans ?_
    cases s.data.getLsbD q <;> rfl
  case isFalse h => exact s.putBit_getLsbD_other .data (q := ⟨q, hq⟩) (fun hqp => h (congrArg Fin.val hqp)) _

/-! ### Repeated toggles -/

/-- The first of `n + 1` toggles succeeds at an output pin, and the others go on from its state. -/
theorem toggleTimes_succ_of_output {s : State} {p : Nat} (hp : p < 8) (hd : s.dir.getLsbD p = true) (n : Nat) :
    toggleTimes (n + 1) s p = toggleTimes n (s.toggled ⟨p, hp⟩) p := by
  have htoggle : togglePin s (p : Int) = .ok (s.toggled ⟨p, hp⟩) := togglePin_of_output hp hd
  rw [toggleTimes, htoggle]

/-- `n` toggles of an output pin succeed; its bit of DATA follows the parity of `n`, and DIR and the other bits stay (R128). -/
theorem toggleTimes_of_output {s : State} {p : Nat} (hp : p < 8) (hd : s.dir.getLsbD p = true) (n : Nat) :
    ∃ t, toggleTimes n s p = .ok t ∧ t.dir = s.dir ∧ ∀ q : Nat, q < 8 →
      t.data.getLsbD q = if q = p ∧ n % 2 = 1 then !s.data.getLsbD q else s.data.getLsbD q := by
  induction n generalizing s with
  | zero => exact ⟨s, rfl, rfl, fun q _ => (if_neg (by omega)).symm⟩
  | succ n ih =>
    obtain ⟨t, hrun, hdir, hbits⟩ := ih (s := s.toggled ⟨p, hp⟩) (by rw [State.toggled_dir, hd])
    refine ⟨t, (toggleTimes_succ_of_output hp hd n).trans hrun, hdir, fun q hq => ?_⟩
    rw [hbits q hq, s.toggled_data_getLsbD hp hq]
    by_cases hqp : q = p
    · rcases Nat.mod_two_eq_zero_or_one n with hn | hn <;> simp [hqp, hn, Nat.add_mod]
    · simp [hqp]

/-- Settles O9: the bits after n toggles by induction on n; two toggles restore every bit of DATA, so the byte. -/
theorem togglesOfAPinAlternate : Obligations.TogglesOfAPinAlternate := by
  intro s p hp hd
  refine ⟨toggleTimes_of_output hp hd, ?_⟩
  obtain ⟨t, hrun, -, hbits⟩ := toggleTimes_of_output hp hd 2
  refine ⟨t, hrun, BitVec.eq_of_getLsbD_eq fun q hq => ?_⟩
  rw [hbits q hq, if_neg (by omega)]

/-! ### The four commands -/

theorem State.respond_pinNotConfigured (s : State) :
    s.respond .pinNotConfigured 0#16 = { s with resp := some 0x30000#20 } := rfl

/-- The end of a command that toggled an output pin: the new DATA, its event and (Ok, 0), and nothing else changes. -/
theorem completeWrite_toggled (s : State) (p : Fin 8) :
    completeWrite s (.ok (s.toggled p)) = { s with
      data := (s.toggled p).data, trace := s.trace ++ [.write .data p (BitVec.ofBool (!s.data.getLsbD p.val))],
      resp := some 0x00000#20 } := rfl

section Ready

variable {s : State} (hr : s.ready = true)
include hr

theorem exec_wrpin_of_ready (p v : Nat) :
    exec (.wrpin p v) s = .next (completeWrite s (writePin s (pinArg p) (valArg v))) := whenReady_of_ready hr
theorem exec_tglpin_of_ready (p : Nat) :
    exec (.tglpin p) s = .next (completeWrite s (togglePin s (pinArg p))) := whenReady_of_ready hr

end Ready

/-- RDPIN and RDBIT.DATA are the same read of DATA: `read_pin` has no direction guard (R122, R126). -/
theorem exec_rdpin_eq_rdbitData (p : Nat) (s : State) : exec (.rdpin p) s = exec (.rdbitData p) s := rfl

/-- Settles O13: the word by its format, the answer by that of RDBIT.DATA, which is the same read. -/
theorem rdpinAnswersTheDataBit : Obligations.RdpinAnswersTheDataBit := by
  intro s p hr hp
  refine ⟨encode_rdpin p, decode_of_encode_eq (pinEncodable_iff.2 hp) (encode_rdpin p),
    fun v => decode_commandWord_valNotZero (op := 7) (by decide) hp, ?_, exec_rdpin_eq_rdbitData p s⟩
  rw [exec_rdpin_eq_rdbitData, exec_rdbitData_of_ready hr, completeRead_readBit, State.reg_data]

/-- Settles O16: the word by its format; each outcome is that of WRBIT.DIR, which is the same write. -/
theorem cfgdirSetsOneDirection : Obligations.CfgdirSetsOneDirection := by
  intro s p v hr hp hv
  have hwf : (Instr.cfgdir p v).wellFormed = true :=
    Bool.and_eq_true_iff.2 ⟨pinEncodable_iff.2 hp, valEncodable_iff.2 hv⟩
  obtain ⟨-, -, hpinGe, hvalGe, hwrite, hsame⟩ := wrbitDirWritesOneDirBit s p v hr hp hv
  rw [← hsame]
  exact ⟨encode_cfgdir p v, decode_of_encode_eq hwf (encode_cfgdir p v), hpinGe, hvalGe, hwrite⟩

/-- Settles O17: the pin check and the direction guard decide first; past them the command is that of WRBIT.DATA. -/
theorem wrpinWritesAnOutputPin : Obligations.WrpinWritesAnOutputPin := by
  intro s p v hr hp hv
  have hwf : (Instr.wrpin p v).wellFormed = true :=
    Bool.and_eq_true_iff.2 ⟨pinEncodable_iff.2 hp, valEncodable_iff.2 hv⟩
  rw [exec_wrpin_of_ready hr]
  refine ⟨encode_wrpin p v, decode_of_encode_eq hwf (encode_wrpin p v), fun hp8 => ?_, fun hp8 hd => ?_,
    fun hp8 hd hv2 => ?_, fun hp8 hd hv2 => ⟨_, ?_, fun q hq => s.putBit_ofNat_getLsbD .data hp8 hq hv2⟩⟩
  · rw [writePin_of_pin_ge s hp8, completeWrite_error, State.respond_invalidPin]
  · rw [writePin_of_input hp8 hd, completeWrite_error, State.respond_pinNotConfigured]
  · rw [writePin_of_output hp8 hd, completeWrite_writeBit_of_val_ge s .data hp8 hv2]
  · rw [writePin_of_output hp8 hd, completeWrite_writeBit_data s hp8 hv2, State.reg_data]

/-- Settles O18: one clause per outcome of `toggle_pin` at a pin operand. -/
theorem tglpinComplementsAnOutputPin : Obligations.TglpinComplementsAnOutputPin := by
  intro s p hr hp
  rw [exec_tglpin_of_ready hr]
  refine ⟨encode_tglpin p, decode_of_encode_eq (pinEncodable_iff.2 hp) (encode_tglpin p),
    fun v => decode_commandWord_valNotZero (op := 8) (by decide) hp, fun hp8 => ?_, fun hp8 hd => ?_,
    fun hp8 hd => ⟨_, ?_, fun q hq => s.toggled_data_getLsbD hp8 hq⟩⟩
  · rw [togglePin_of_pin_ge s hp8, completeWrite_error, State.respond_invalidPin]
  · rw [togglePin_of_input hp8 hd, completeWrite_error, State.respond_pinNotConfigured]
  · rw [togglePin_of_output hp8 hd, completeWrite_toggled]

end Sys2Proof.Machine
end

section
/-! The Bit Encoder (42_bit_encoder.md): the words of format V, the bits of a byte, and the two outcomes of `encode_byte` (R140,
R141). -/

namespace Sys2Proof

/-! ### The words of format V -/

theorem formatV_of_pin_ne_zero {w : CmdWord} (hp : pinField w ≠ 0) (mk : Byte → Instr) :
    formatV w mk = .error .pinNotZero :=
  if_neg hp

/-- A word of ENCB's opcode is reserved when its PIN is not zero (R71, R75). -/
theorem decode_commandWord_pinNotZero {pin val : Nat} (hpos : 0 < pin) (hp : pin < 16) (hv : val < 256) :
    decode (commandWord 9 pin val) = .error .pinNotZero := by
  have hfield : opField (commandWord 9 pin val) = 9 := opField_commandWord (by decide) hp hv
  have hpin : pinField (commandWord 9 pin val) ≠ 0 := by
    rw [pinField_commandWord hp hv]
    omega
  simp only [decode, hfield, formatV_of_pin_ne_zero hpin]

theorem encode_encb (b : Byte) : encode (.encb b) = BitVec.ofNat 16 (0x9000 + b.toNat) := rfl

end Sys2Proof

namespace Sys2Proof.Machine

/-! ### The bits of a byte -/

theorem byteBit_eq_ofBool (b : Byte) (i : Nat) : byteBit b i = BitVec.ofBool (b.getLsbD i) := by
  refine BitVec.eq_of_getLsbD_eq fun j hj => ?_
  obtain rfl : j = 0 := Nat.lt_one_iff.1 hj
  simp [byteBit]

/-- The bit appended at offset k is `b[7-k]` (R140). -/
theorem byteBits_eq_map_range (b : Byte) :
    byteBits b = (List.range 8).map fun k => BitVec.ofBool (b.getLsbD (7 - k)) := by
  calc byteBits b
    _ = (List.range 8).map fun k => byteBit b (7 - k) := rfl
    _ = (List.range 8).map fun k => BitVec.ofBool (b.getLsbD (7 - k)) :=
      List.map_congr_left fun k _ => byteBit_eq_ofBool b (7 - k)

/-! ### The two outcomes of `encode_byte` -/

/-- Only a finite BUF_CAP can be exceeded (R141). -/
theorem overCap_eq_true_iff {cap : Option Nat} {n : Nat} : overCap cap n = true ↔ ∃ m, cap = some m ∧ m < n := by
  cases cap with
  | none => simp [overCap]
  | some m => simp [overCap]

theorem State.respond_bufferFull (s : State) : s.respond .bufferFull 0#16 = { s with resp := some 0x60000#20 } := rfl

theorem encodeByte_of_full {cap : Option Nat} {s : State} (h : overCap cap (s.buf.length + 8) = true) (b : Byte) :
    encodeByte cap b s = { s with resp := some 0x60000#20 } := by
  rw [encodeByte, if_pos h, State.respond_bufferFull]

theorem encodeByte_of_fits {cap : Option Nat} {s : State} (h : ¬ overCap cap (s.buf.length + 8) = true) (b : Byte) :
    encodeByte cap b s = { s with buf := s.buf ++ byteBits b, resp := some 0x00000#20 } := by
  rw [encodeByte, if_neg h, State.respond_ok_zero]

theorem exec_encb_of_ready {s : State} (hr : s.ready = true) (b : Byte) :
    exec (.encb b) s = .next (encodeByte Config.block.bufCap b s) :=
  whenReady_of_ready hr

/-- Settles O19: the word by format V; the outcome by whether the eight bits of the byte exceed the capacity. -/
theorem encbAppendsTheByteOrIsFull : Obligations.EncbAppendsTheByteOrIsFull := by
  intro s b hr
  refine ⟨encode_encb b, decode_of_encode_eq rfl (encode_encb b),
    fun p hpos hp => decode_commandWord_pinNotZero hpos hp b.isLt, exec_encb_of_ready hr b,
    fun cap => ⟨fun m hcap hfull => ?_, fun hfits => ?_⟩⟩
  · exact encodeByte_of_full (overCap_eq_true_iff.2 ⟨m, hcap, hfull⟩) b
  · have hroom : ¬ overCap cap (s.buf.length + 8) = true := fun hover =>
      have ⟨m, hcap, hfull⟩ := overCap_eq_true_iff.1 hover
      absurd (hfits m hcap) (Nat.not_le_of_gt hfull)
    rw [encodeByte_of_fits hroom, byteBits_eq_map_range]

end Sys2Proof.Machine
end

section
/-! The sequencer, one position at a time (43_serial_transmitter.md R153 to R162): the micro-step of each position as an
equation, the procedures it calls with a role's pin, and `dispatch`. -/

namespace Sys2Proof.Machine

/-! ### The micro-step of each position -/

section Positions

variable (c : Config) {s : State}

theorem microStep_iReport (h : s.seq = .iReport) : microStep c s = .next (stepIReport s) := by rw [microStep, h]
theorem microStep_iSettle (h : s.seq = .iSettle) : microStep c s = .next (stepISettle s) := by rw [microStep, h]
theorem microStep_iCfgData (h : s.seq = .iCfgData) : microStep c s = .next (stepICfgData c s) := by rw [microStep, h]
theorem microStep_iCfgClock (h : s.seq = .iCfgClock) : microStep c s = .next (stepICfgClock c s) := by rw [microStep, h]
theorem microStep_aToggle (h : s.seq = .aToggle) : microStep c s = .next (stepAToggle c s) := by rw [microStep, h]
theorem microStep_aTick (h : s.seq = .aTick) : microStep c s = .next (stepATick s) := by rw [microStep, h]
theorem microStep_tData {b : Bit} (h : s.seq = .tData) (hb : s.buf[s.idx]? = some b) :
    microStep c s = .next (stepTData c b s) := by rw [microStep, h]; simp only [hb]
theorem microStep_tStrobe (h : s.seq = .tStrobe) : microStep c s = .next (stepTStrobe c s) := by rw [microStep, h]
theorem microStep_tReport (h : s.seq = .tReport) : microStep c s = .next (stepTReport s) := by rw [microStep, h]
theorem microStep_tTick (h : s.seq = .tTick) : microStep c s = .next (stepTTick s) := by rw [microStep, h]

end Positions

/-! ### Several micro-steps -/

theorem microSteps_succ_of_next {c : Config} {s t : State} (h : microStep c s = .next t) (k : Nat) :
    microSteps c (k + 1) s = microSteps c k t := by
  simp only [microSteps, h]

theorem microSteps_one_of_next {c : Config} {s t : State} (h : microStep c s = .next t) : microSteps c 1 s = .next t :=
  microSteps_succ_of_next h 0

/-- Micro-steps after micro-steps: the second run starts from the state the first one leaves. -/
theorem microSteps_add {c : Config} {j : Nat} {s t : State} (h : microSteps c j s = .next t) (k : Nat) :
    microSteps c (j + k) s = microSteps c k t := by
  induction j generalizing s with
  | zero =>
    cases h
    rw [Nat.zero_add]
  | succ j ih =>
    rw [Nat.add_right_comm]
    simp only [microSteps] at h ⊢
    cases hstep : microStep c s with
    | next u =>
      rw [hstep] at h
      exact ih h
    | fault f =>
      rw [hstep] at h
      cases h
    | refused r =>
      rw [hstep] at h
      cases h

/-! ### The procedures with a role's pin -/

/-- A role's pin is passed on unchanged, as a PIN field is (R8, R77). -/
theorem roleArg_eq_pinArg (role : Byte) : roleArg role = pinArg role.toNat := rfl

section Roles

variable (s : State) {role : Byte}

theorem configureDirection_role_of_lt (hp : role.toNat < 8) :
    configureDirection s (roleArg role) 1 = .ok (s.putBit .dir ⟨role.toNat, hp⟩ 1#1) :=
  writeBit_val s .dir ⟨role.toNat, hp⟩ 1#1

theorem configureDirection_role_of_gt (hp : 7 < role.toNat) :
    configureDirection s (roleArg role) 1 = .error .invalidPin :=
  writeBit_eq_invalidPin (pinArg_outOfRange hp) s .dir 1

theorem writePin_role_of_output (hp : role.toNat < 8) (hd : s.dir.getLsbD role.toNat = true) (b : Bit) :
    writePin s (roleArg role) b.toNat = .ok (s.putBit .data ⟨role.toNat, hp⟩ b) := by
  rw [roleArg_eq_pinArg, writePin_of_output hp hd]
  exact writeBit_val s .data ⟨role.toNat, hp⟩ b

end Roles

/-- The bits of the register after a `write_bit` to it, by the number of the pin (R101, R106). -/
theorem State.putBit_reg_getLsbD (s : State) (r : Reg) {p q : Nat} (hp : p < 8) (hq : q < 8) (v : Bit) :
    ((s.putBit r ⟨p, hp⟩ v).reg r).getLsbD q = if q = p then decide (v = 1#1) else (s.reg r).getLsbD q := by
  simpa only [true_and, Fin.mk.injEq] using s.putBit_getLsbD r r ⟨p, hp⟩ ⟨q, hq⟩ v

/-- Making a pin an output sets its bit of DIR and leaves the others (R155, R156). -/
theorem State.putBit_dir_one_getLsbD (s : State) {p q : Nat} (hp : p < 8) (hq : q < 8) :
    (s.putBit .dir ⟨p, hp⟩ 1#1).dir.getLsbD q = (decide (q = p) || s.dir.getLsbD q) := by
  rw [← State.reg_dir, s.putBit_reg_getLsbD .dir hp hq, State.reg_dir]
  split <;> simp [*]

/-! ### `dispatch` and the ends of a session -/

theorem State.finish_eq (s : State) :
    s.finish = { s with buf := [], idx := 0, seq := .done, resp := some 0x00000#20 } := rfl
theorem State.abort_invalidPin (s : State) :
    s.abort .invalidPin = { s with abortCode := .invalidPin, seq := .aborted, resp := some 0x10000#20 } := rfl
theorem State.abort_pinNotConfigured (s : State) :
    s.abort .pinNotConfigured = { s with abortCode := .pinNotConfigured, seq := .aborted, resp := some 0x30000#20 } := rfl

/-- Past the last bit, `dispatch` ends the session (R152, R163). -/
theorem State.dispatch_of_length_le {s : State} {i : Nat} (h : s.buf.length ≤ i) : s.dispatch i = s.finish := by
  rw [State.dispatch]
  exact if_pos h

/-- Inside the buffer, `dispatch` goes to the acknowledgment at the start of a byte, else to the bit (R152). -/
theorem State.dispatch_of_lt {s : State} {i : Nat} (h : i < s.buf.length) :
    s.dispatch i = { s with idx := i, seq := if i % 8 = 0 then .aToggle else .tData } := by
  rw [State.dispatch]
  refine (if_neg (Nat.not_le_of_gt h)).trans ?_
  split <;> rfl

/-! ### Reports and ticks -/

/-- A micro-step at a position that does not report adds at most one event, and no report (R161). -/
theorem microStep_trace_of_not_report {c : Config} {s t : State} (hi : s.seq ≠ .iReport) (ht : s.seq ≠ .tReport)
    (h : microStep c s = .next t) : t.trace = s.trace ∨ ∃ e, e.isReport = false ∧ t.trace = s.trace ++ [e] := by
  have hwrite (r : Reg) (p : Fin 8) (v : Bit) : ∃ e, e.isReport = false ∧ (s.putBit r p v).trace = s.trace ++ [e] :=
    ⟨.write r p v, rfl, s.putBit_trace r p v⟩
  have htick : ∃ e, e.isReport = false ∧ s.tick.trace = s.trace ++ [e] := ⟨.tick, rfl, s.tick_trace⟩
  rcases microStep_cases h with ⟨hs, -⟩ | ⟨-, -, rfl⟩ | ⟨-, -, rfl⟩ | ⟨-, p, -, rfl⟩ | ⟨-, p, -, rfl⟩ | ⟨-, p, -, -, rfl⟩ |
    ⟨-, rfl⟩ | ⟨-, p, b, -, -, -, rfl⟩ | ⟨-, p, -, -, rfl⟩ | ⟨hs, -⟩ | ⟨-, rfl⟩ | ⟨-, -, rfl⟩ | ⟨-, -, rfl⟩ | ⟨e, -, rfl, -⟩
  · exact absurd hs hi
  · exact .inr htick
  · exact .inl rfl
  · exact .inr (hwrite .dir p _)
  · rw [State.dispatch_trace]
    exact .inr (hwrite .dir p _)
  · exact .inr (hwrite .data p _)
  · exact .inr htick
  · exact .inr (hwrite .data p b)
  · exact .inr (hwrite .data p _)
  · exact absurd hs ht
  · rw [State.dispatch_trace]
    exact .inr htick
  · exact .inl rfl
  · exact .inl rfl
  · exact .inl rfl

/-- Settles O25: the two reporting positions by their equations; elsewhere by what a micro-step adds to the trace. -/
theorem reportStepsShowTheRegisters : Obligations.ReportStepsShowTheRegisters := by
  intro c s
  refine ⟨microStep_iReport c, microStep_tReport c, fun t hi ht h => ?_⟩
  rcases microStep_trace_of_not_report hi ht h with htrace | ⟨e, he, htrace⟩
  · rw [htrace]
  · simp [htrace, he]

/-- Settles O31: A_TICK by its equation; T_TICK by the three outcomes of the `dispatch` of IDX + 1. -/
theorem tickStepsMoveOn : Obligations.TickStepsMoveOn := by
  intro c s
  refine ⟨microStep_aTick c, fun hs => ?_⟩
  rw [microStep_tTick c hs, stepTTick]
  refine ⟨fun hend => ?_, fun hmore hbyte => ?_, fun hmore hbyte => ?_⟩
  · rw [State.dispatch_of_length_le (s := s.tick) hend, State.finish_eq]
    rfl
  · rw [State.dispatch_of_lt (s := s.tick) hmore, if_pos hbyte]
    rfl
  · rw [State.dispatch_of_lt (s := s.tick) hmore, if_neg hbyte]
    rfl

/-! ### The settle ticks -/

theorem stepISettle_of_pos {s : State} (h : 0 < s.settleCnt) :
    stepISettle s = { s.tick with settleCnt := s.settleCnt - 1 } := if_pos h
theorem stepISettle_of_zero {s : State} (h : s.settleCnt = 0) : stepISettle s = s.goto .iCfgData :=
  if_neg (Nat.not_lt.2 h.le)

/-- `k` settle steps emit `k` ticks and count down by `k` (R154). -/
theorem microSteps_settle (c : Config) {s : State} (hs : s.seq = .iSettle) {k : Nat} (hk : k ≤ s.settleCnt) :
    microSteps c k s = .next { s with trace := s.trace ++ List.replicate k .tick, settleCnt := s.settleCnt - k } := by
  induction k with
  | zero => simp [microSteps]
  | succ k ih =>
    rw [microSteps_add (ih (Nat.le_of_succ_le hk)) 1, microSteps_one_of_next (microStep_iSettle c ?_),
      stepISettle_of_pos (Nat.sub_pos_of_lt hk), List.replicate_succ', ← List.append_assoc]
    · rfl
    · exact hs

/-- All the settle ticks, and the eventless step after them (R154). -/
theorem microSteps_settle_all (c : Config) {s : State} (hs : s.seq = .iSettle) :
    microSteps c (s.settleCnt + 1) s = .next ((settleWait s s.settleCnt).goto .iCfgData) := by
  rw [microSteps_add (microSteps_settle c hs le_rfl) 1, microSteps_one_of_next (microStep_iSettle c ?_),
    stepISettle_of_zero (Nat.sub_self _), Nat.sub_self]
  · rfl
  · exact hs

/-- Settles O26: the ticks by induction on their number, then the step at SETTLE_CNT 0. -/
theorem settleEmitsItsTicksAndMovesOn : Obligations.SettleEmitsItsTicksAndMovesOn := fun c _ hs =>
  ⟨fun _ hk => microSteps_settle c hs hk, microSteps_settle_all c hs⟩

/-! ### The two configurations -/

/-- Settles O27: `configure_direction` of the DATA line, in range and beyond it. -/
theorem dataLineIsConfiguredOrAborts : Obligations.DataLineIsConfiguredOrAborts := by
  intro c s hs
  rw [microStep_iCfgData c hs, stepICfgData]
  refine ⟨fun hp => ?_, fun hp => ⟨(s.putBit .dir ⟨_, hp⟩ 1#1).dir, ?_, fun q hq => s.putBit_dir_one_getLsbD hp hq⟩⟩
  · rw [configureDirection_role_of_gt s hp, orAbort_error, State.abort_invalidPin]
  · rw [configureDirection_role_of_lt s hp, orAbort_ok]
    rfl

/-- Settles O28: `configure_direction` of CLOCK, and then the `dispatch` of index 0, which a buffer of length 0 ends. -/
theorem clockIsConfiguredOrAborts : Obligations.ClockIsConfiguredOrAborts := by
  intro c s hs
  rw [microStep_iCfgClock c hs, stepICfgClock]
  refine ⟨fun hp => ?_, fun hp => ⟨(s.putBit .dir ⟨_, hp⟩ 1#1).dir, fun hempty => ?_, fun hmore => ?_,
    fun q hq => s.putBit_dir_one_getLsbD hp hq⟩⟩
  · rw [configureDirection_role_of_gt s hp, orAbort_error, State.abort_invalidPin]
  · rw [configureDirection_role_of_lt s hp, orAbort_ok, State.dispatch_of_length_le (by simp [hempty]), State.finish_eq]
    rfl
  · rw [configureDirection_role_of_lt s hp, orAbort_ok, State.dispatch_of_lt (by simpa [List.length_pos_iff] using hmore)]
    rfl

/-! ### The writes of DATA -/

/-- A_TOGGLE and T_STROBE are the same step but for the position they go to (R157, R160). -/
theorem microStep_clock (c : Config) {s : State} {next : SeqPos}
    (h : (s.seq = .aToggle ∧ next = .aTick) ∨ (s.seq = .tStrobe ∧ next = .tReport)) :
    microStep c s = .next (orAbort s (togglePin s (roleArg c.clockPin)) fun t => t.goto next) := by
  rcases h with ⟨hs, rfl⟩ | ⟨hs, rfl⟩
  · exact microStep_aToggle c hs
  · exact microStep_tStrobe c hs

/-- Settles O29: one clause per outcome of `toggle_pin` at CLOCK. -/
theorem clockStepsComplementClock : Obligations.ClockStepsComplementClock := by
  intro c s next hs
  rw [microStep_clock c hs, roleArg_eq_pinArg]
  refine ⟨fun hp hd => ⟨(s.toggled ⟨_, hp⟩).data, ?_, fun q hq => s.toggled_data_getLsbD hp hq⟩, fun hp => ?_,
    fun hp hd => ?_⟩
  · rw [togglePin_of_output hp hd, orAbort_ok]
    rfl
  · rw [togglePin_of_pin_ge s hp, orAbort_error, State.abort_invalidPin]
  · rw [togglePin_of_input hp hd, orAbort_error, State.abort_pinNotConfigured]

/-- Settles O30: one clause per outcome of `write_pin` at the DATA line. -/
theorem dataStepWritesTheBit : Obligations.DataStepWritesTheBit := by
  intro c s b hs hb
  rw [microStep_tData c hs hb, stepTData]
  refine ⟨fun hp hd => ⟨(s.putBit .data ⟨_, hp⟩ b).data, ?_, fun q hq => s.putBit_reg_getLsbD .data hp hq b⟩, fun hp => ?_,
    fun hp hd => ?_⟩
  · rw [writePin_role_of_output s hp hd, orAbort_ok]
    rfl
  · rw [roleArg_eq_pinArg, writePin_of_pin_ge s hp, orAbort_error, State.abort_invalidPin]
  · rw [roleArg_eq_pinArg, writePin_of_input hp hd, orAbort_error, State.abort_pinNotConfigured]

/-! ### The beginning of a session -/

/-- A session's report and settle ticks are over after SETTLE_TICKS + 2 micro-steps, as the loop of R165 performs them. -/
theorem microSteps_startSession (c : Config) (s : State) :
    microSteps c (c.settleTicks + 2) (s.startSession c) =
      .next ((settleWait (s.startSession c).report c.settleTicks).goto .iCfgData) := by
  rw [microSteps_succ_of_next (microStep_iReport c (s.startSession_seq c))]
  exact microSteps_settle_all c (s := (s.startSession c).report.goto .iSettle) rfl

/-- A session that has reported, waited and configured both pins, before the dispatch of index 0; SEQ is still the position that
SEND set (R153 to R156). -/
def State.configured (s : State) (c : Config) (hd : c.dataPin.toNat < 8) (hc : c.clockPin.toNat < 8) : State :=
  ((settleWait (s.startSession c).report c.settleTicks).putBit .dir ⟨c.dataPin.toNat, hd⟩ 1#1).putBit .dir
    ⟨c.clockPin.toNat, hc⟩ 1#1

/-- With both pins in range, SETTLE_TICKS + 4 micro-steps configure a session and dispatch index 0 (R153 to R156). -/
theorem microSteps_startSession_configured (c : Config) (s : State) (hd : c.dataPin.toNat < 8) (hc : c.clockPin.toNat < 8) :
    microSteps c (c.settleTicks + 4) (s.startSession c) = .next ((s.configured c hd hc).dispatch 0) := by
  rw [microSteps_add (microSteps_startSession c s) 2, microSteps_succ_of_next (microStep_iCfgData c (State.goto_seq _ _)),
    stepICfgData, configureDirection_role_of_lt _ hd, orAbort_ok,
    microSteps_one_of_next (microStep_iCfgClock c (State.goto_seq _ _)), stepICfgClock, configureDirection_role_of_lt _ hc,
    orAbort_ok]
  rfl

/-- Settles O38: once configured, the `dispatch` of index 0 finds an empty buffer at its end. -/
theorem emptyBufferSessionOnlyConfigures : Obligations.EmptyBufferSessionOnlyConfigures := by
  intro c s hd hc hempty
  refine ⟨(s.configured c hd hc).finish, ?_, rfl, rfl, rfl, rfl, ?_⟩
  · rw [microSteps_startSession_configured c s hd hc,
      State.dispatch_of_length_le (by simp [State.configured, hempty])]
  · simp [State.configured]

end Sys2Proof.Machine
end

section
/-! The session as one loop (43_serial_transmitter.md R165): the micro-steps perform the loop, piece by piece. The two sides
differ in SEQ alone, which no procedure reads. -/

namespace Sys2Proof.Machine

/-! ### The procedures neither read nor write SEQ -/

section Goto

variable (s : State) (p : SeqPos)

theorem State.putBit_goto (r : Reg) (q : Fin 8) (v : Bit) : (s.goto p).putBit r q v = (s.putBit r q v).goto p := by
  cases r <;> rfl

theorem writeBit_goto (r : Reg) (pin value : Int) :
    writeBit (s.goto p) r pin value = (writeBit s r pin value).map (State.goto · p) := by
  rcases writeBit_cases s r pin value with ⟨q, v, rfl, rfl, hw⟩ | ⟨hpin, hw⟩ | ⟨⟨h0, h7⟩, ⟨hv0, hv1⟩, hw⟩
  · rw [writeBit_val, writeBit_val, State.putBit_goto]
    rfl
  · rw [hw, writeBit_eq_invalidPin hpin]
    rfl
  · obtain ⟨q, rfl⟩ := exists_pin_of_inRange h0 h7
    rw [hw, writeBit_eq_invalidValue hv0 hv1]
    rfl

theorem configureDirection_goto (pin isOutput : Int) :
    configureDirection (s.goto p) pin isOutput = (configureDirection s pin isOutput).map (State.goto · p) :=
  writeBit_goto s p .dir pin isOutput

theorem readBit_goto (r : Reg) (pin : Int) : readBit (s.goto p) r pin = readBit s r pin := by
  cases r <;> rfl

theorem writePin_goto (pin value : Int) :
    writePin (s.goto p) pin value = (writePin s pin value).map (State.goto · p) := by
  rw [writePin, writePin, readBit_goto]
  cases readBit s .dir pin with
  | error e => rfl
  | ok d =>
    dsimp only
    split
    · rfl
    · exact writeBit_goto s p .data pin value

theorem togglePin_goto (pin : Int) : togglePin (s.goto p) pin = (togglePin s pin).map (State.goto · p) := by
  rw [togglePin, togglePin, readPin, readPin, readBit_goto]
  cases readBit s .data pin with
  | error e => rfl
  | ok b =>
    dsimp only
    split
    · rfl
    · exact writePin_goto s p pin _

end Goto

/-! ### A piece of the loop, and the micro-steps that perform it -/

/-- The state at the end of a piece of the loop: what follows its result, or the aborted state of its raise (R165). -/
def endOf (r : Except State State) (go : State → State) : State :=
  match r with
  | .ok t => go t
  | .error t => t

theorem session_eq_endOf (c : Config) (s : State) : session c s = endOf (sendBody c (s.startSession c)) State.finish := rfl

/-- At most `n` micro-steps lead from `s` to the end of a piece of the loop with result `r`; a result without a raise satisfies
`post`, and a raise is in ABORTED. -/
structure Performs (c : Config) (n : Nat) (s : State) (r : Except State State) (go : State → State) (post : State → Prop) :
    Prop where
  reaches : ∃ k, k ≤ n ∧ microSteps c k s = .next (endOf r go)
  completed : ∀ t, r = .ok t → post t
  aborted : ∀ t, r = .error t → t.seq = .aborted

section Performs

variable {c : Config} {s : State} {go : State → State} {post : State → Prop}

/-- A piece of the loop without a call, after the micro-steps that perform it. -/
theorem Performs.of_steps {n : Nat} {t : State} (h : microSteps c n s = .next (go t)) (hpost : post t) :
    Performs c n s (.ok t) go post where
  reaches := ⟨n, le_rfl, h⟩
  completed _ ht := by cases ht; exact hpost
  aborted _ ht := nomatch ht

/-- A piece of the loop after micro-steps that come before it. -/
theorem Performs.after {j n : Nat} {u : State} {r : Except State State} (h : microSteps c j s = .next u)
    (hu : Performs c n u r go post) : Performs c (j + n) s r go post :=
  have ⟨k, hk, hrun⟩ := hu.reaches
  ⟨⟨j + k, Nat.add_le_add_left hk j, (microSteps_add h k).trans hrun⟩, hu.completed, hu.aborted⟩

theorem Performs.mono {m n : Nat} {r : Except State State} (hmn : m ≤ n) (h : Performs c m s r go post) :
    Performs c n s r go post :=
  have ⟨k, hk, hrun⟩ := h.reaches
  ⟨⟨k, hk.trans hmn, hrun⟩, h.completed, h.aborted⟩

/-- One piece of the loop after another: the second starts where a first piece without a raise goes to. -/
theorem Performs.bind {m n : Nat} {r : Except State State} {f : State → Except State State} {go' : State → State}
    {post' : State → Prop} (h : Performs c m s r go post)
    (hf : ∀ t, post t → Performs c n (go t) (f t) go' post') : Performs c (m + n) s (r >>= f) go' post' := by
  obtain ⟨k, hk, hrun⟩ := h.reaches
  cases r with
  | error t => exact ⟨⟨k, by omega, hrun⟩, fun u hu => (nomatch hu), h.aborted⟩
  | ok t =>
    have ht := hf t (h.completed t rfl)
    obtain ⟨j, hj, hrun'⟩ := ht.reaches
    exact ⟨⟨k + j, by omega, (microSteps_add hrun j).trans hrun'⟩, ht.completed, ht.aborted⟩

/-- A micro-step that calls a procedure performs the call of the loop, when neither the procedure nor what follows reads its
position (R164, R207). -/
theorem Performs.call {p : SeqPos} {r r' : Except Status State} (hr : r' = r.map (State.goto · p))
    (hgo : ∀ t, go (t.goto p) = go t) (h : microStep c (s.goto p) = .next (orAbort (s.goto p) r' go))
    (hpost : ∀ t, r = .ok t → post t) : Performs c 1 (s.goto p) (attempt s r) go post := by
  subst hr
  have hrun := microSteps_one_of_next h
  cases r with
  | error e => exact ⟨⟨1, le_rfl, hrun⟩, fun t ht => (nomatch ht), fun t ht => by cases ht; rfl⟩
  | ok t => exact ⟨⟨1, le_rfl, hrun.trans (congrArg _ (hgo t))⟩, fun u hu => hpost u (by cases hu; rfl),
      fun u hu => nomatch hu⟩

end Performs

/-! ### The calls write neither BUF nor IDX -/

/-- The loop stands at bit index `i` of the buffer `buf`. -/
structure AtBit (buf : List Bit) (i : Nat) (s : State) : Prop where
  buf_eq : s.buf = buf
  idx_eq : s.idx = i

theorem AtBit.putBit {buf : List Bit} {i : Nat} {s : State} (h : AtBit buf i s) (r : Reg) (p : Fin 8) (v : Bit) :
    AtBit buf i (s.putBit r p v) :=
  ⟨(s.putBit_buf r p v).trans h.buf_eq, (s.putBit_idx r p v).trans h.idx_eq⟩

section Calls

variable {buf : List Bit} {i : Nat} {s t : State} {pin value : Int}

theorem AtBit.configureDirection (hs : AtBit buf i s) (h : configureDirection s pin value = .ok t) : AtBit buf i t := by
  rcases writeBit_cases s .dir pin value with ⟨p, v, -, -, hw⟩ | ⟨-, hw⟩ | ⟨-, -, hw⟩
  · cases hw.symm.trans h
    exact hs.putBit .dir p v
  · cases hw.symm.trans h
  · cases hw.symm.trans h

theorem AtBit.writePin (hs : AtBit buf i s) (h : writePin s pin value = .ok t) : AtBit buf i t := by
  rcases writePin_cases s pin value with ⟨p, v, -, -, -, hw⟩ | ⟨-, hw⟩ | ⟨-, -, -, hw⟩ | ⟨-, -, -, -, hw⟩
  · cases hw.symm.trans h
    exact hs.putBit .data p v
  · cases hw.symm.trans h
  · cases hw.symm.trans h
  · cases hw.symm.trans h

theorem AtBit.togglePin (hs : AtBit buf i s) (h : togglePin s pin = .ok t) : AtBit buf i t := by
  rcases togglePin_cases s pin with ⟨p, -, -, hw⟩ | ⟨-, hw⟩ | ⟨-, -, -, hw⟩
  · cases hw.symm.trans h
    exact hs.putBit .data p _
  · cases hw.symm.trans h
  · cases hw.symm.trans h

end Calls

/-! ### The pieces of the loop -/

section Pieces

variable (c : Config) {buf : List Bit} {i : Nat} {s : State}

/-- I_CFG_DATA performs the configuration of the DATA line (R155). -/
theorem configureData_performed (h : AtBit buf i s) :
    Performs c 1 (s.goto .iCfgData) (attempt s (configureDirection s (roleArg c.dataPin) 1)) (State.goto · .iCfgClock)
      (AtBit buf i) :=
  .call (configureDirection_goto s _ _ _) (fun _ => rfl) (microStep_iCfgData c rfl) fun _ => h.configureDirection

/-- I_CFG_CLOCK performs the configuration of CLOCK, and dispatches the first index (R156). -/
theorem configureClock_performed (h : AtBit buf i s) :
    Performs c 1 (s.goto .iCfgClock) (attempt s (configureDirection s (roleArg c.clockPin) 1)) (State.dispatch · 0)
      (AtBit buf i) :=
  .call (configureDirection_goto s _ _ _) (fun _ => rfl) (microStep_iCfgClock c rfl) fun _ => h.configureDirection

/-- A_TOGGLE and A_TICK perform the acknowledgment window; inside a byte there is none, and nothing to perform (R157, R158). -/
theorem ackWindow_performed (h : AtBit buf i s) :
    Performs c 2 (s.goto (if i % 8 = 0 then .aToggle else .tData)) (ackWindow c i s) (State.goto · .tData)
      (AtBit buf i) := by
  rw [ackWindow]
  split
  case isTrue =>
    have htoggle : Performs c 1 (s.goto .aToggle) (attempt s (togglePin s (roleArg c.clockPin))) (State.goto · .aTick)
        (AtBit buf i) :=
      .call (togglePin_goto s _ _) (fun _ => rfl) (microStep_aToggle c rfl) fun _ => h.togglePin
    have hwindow := htoggle.bind (f := fun t => pure t.tick) (go' := (State.goto · .tData)) (post' := AtBit buf i) fun t ht =>
      .of_steps (microSteps_one_of_next (microStep_aTick c rfl)) ⟨ht.buf_eq, ht.idx_eq⟩
    rw [bind_pure_comp] at hwindow
    exact hwindow
  case isFalse => exact (Performs.of_steps (go := (State.goto · .tData)) rfl h).mono (Nat.zero_le 2)

/-- T_DATA performs the write of the bit (R159). -/
theorem writePin_performed {b : Bit} (h : AtBit buf i s) (hb : buf[i]? = some b) :
    Performs c 1 (s.goto .tData) (attempt s (writePin s (roleArg c.dataPin) b.toNat)) (State.goto · .tStrobe)
      (AtBit buf i) := by
  have hbit : s.buf[s.idx]? = some b := by rw [h.buf_eq, h.idx_eq, hb]
  exact .call (writePin_goto s _ _ _) (fun _ => rfl) (microStep_tData c rfl hbit) fun _ => h.writePin

/-- T_STROBE performs the strobe (R160). -/
theorem strobe_performed (h : AtBit buf i s) :
    Performs c 1 (s.goto .tStrobe) (attempt s (togglePin s (roleArg c.clockPin))) (State.goto · .tReport)
      (AtBit buf i) :=
  .call (togglePin_goto s _ _) (fun _ => rfl) (microStep_tStrobe c rfl) fun _ => h.togglePin

/-- T_REPORT and T_TICK perform the report and the tick of the bit, and dispatch the next index (R161, R162). -/
theorem reportTick_performed (h : AtBit buf i s) :
    Performs c 2 (s.goto .tReport) (pure s.report.tick) (State.dispatch · (i + 1)) (AtBit buf i) := by
  refine .of_steps ?_ ⟨h.buf_eq, h.idx_eq⟩
  rw [microSteps_succ_of_next (microStep_tReport c (s.goto_seq _)), microSteps_one_of_next (microStep_tTick c ?_), stepTTick,
    ← h.idx_eq]
  · rfl
  · rfl

/-- At most six micro-steps perform the body of the loop for one bit (R165). -/
theorem sendOneBit_performed {b : Bit} (hb : s.buf[i]? = some b) :
    Performs c 6 (s.dispatch i) (sendOneBit c i b s) (State.dispatch · (i + 1)) (AtBit s.buf i) := by
  have hlt : i < s.buf.length := (List.getElem?_eq_some_iff.1 hb).1
  have hat : AtBit s.buf i { s with idx := i } := ⟨rfl, rfl⟩
  rw [State.dispatch_of_lt hlt]
  exact (ackWindow_performed c hat).bind fun _ hack => (writePin_performed c hack hb).bind fun _ hdata =>
    (strobe_performed c hdata).bind fun _ hstrobe => reportTick_performed c hstrobe

end Pieces

/-! ### The loop, and the session -/

/-- From the `dispatch` of index `i` on, the micro-steps perform the loop over the bits from `i` on (R165). -/
theorem sendBits_performed (c : Config) {bits : List Bit} {i : Nat} {s : State} (h : s.buf.drop i = bits) :
    Performs c (6 * bits.length) (s.dispatch i) (sendBits c i bits s) State.finish fun _ => True := by
  induction bits generalizing i s with
  | nil => exact .of_steps (congrArg Host.Outcome.next (State.dispatch_of_length_le (List.drop_eq_nil_iff.1 h))) trivial
  | cons b bs ih =>
    have hb : s.buf[i]? = some b := by rw [← Nat.add_zero i, ← List.getElem?_drop, h, List.getElem?_cons_zero]
    have hrest : s.buf.drop (i + 1) = bs := by rw [← List.drop_drop, h, List.drop_one, List.tail_cons]
    refine ((sendOneBit_performed c hb).bind fun t ht => ih (by rw [ht.buf_eq, hrest])).mono ?_
    rw [List.length_cons]
    omega

/-- The micro-steps perform the body of `send()` (R165). -/
theorem sendBody_performed (c : Config) (s : State) :
    Performs c (c.settleTicks + 4 + 6 * s.buf.length) (s.startSession c) (sendBody c (s.startSession c)) State.finish
      fun _ => True := by
  have hat : AtBit s.buf 0 (settleWait (s.startSession c).report c.settleTicks) := ⟨rfl, rfl⟩
  have hbody := Performs.after (microSteps_startSession c s) <| (configureData_performed c hat).bind fun _ hdata =>
    (configureClock_performed c hdata).bind fun t hclock =>
      (sendBits_performed c (i := 0) (s := t) List.drop_zero).mono (n := 6 * s.buf.length) (by rw [hclock.buf_eq])
  exact hbody.mono (by omega)

/-- Settles O32: the pieces of the loop are performed one after another, and the end is the finished or the aborted session. -/
theorem microStepsPerformTheLoop : Obligations.MicroStepsPerformTheLoop := by
  intro c s
  have hbody := sendBody_performed c s
  obtain ⟨k, hk, hrun⟩ := hbody.reaches
  refine ⟨k, hk, hrun, ?_⟩
  rw [session_eq_endOf]
  cases hresult : sendBody c (s.startSession c) with
  | ok t => exact .inl rfl
  | error t => exact .inr (hbody.aborted t hresult)

end Sys2Proof.Machine
end

section
/-! The State Reporter (44_state_reporter.md): the words of format Z (R71, R75), the number and the bits of a response (R72), and
the two register bytes side by side in the answer of RENDER (R190). -/

namespace Sys2Proof

/-! ### The words of format Z -/

theorem formatZ_of_fields_ne_zero {w : CmdWord} (h : ¬ (pinField w = 0 ∧ (valField w).toNat = 0)) (i : Instr) :
    formatZ w i = .error .operandsNotZero :=
  if_neg fun ⟨hpin, hval⟩ => h ⟨hpin, congrArg BitVec.toNat hval⟩

/-- A word of either opcode of format Z is reserved under that name when `cmd[11:0]` is not zero (R71, R75). -/
theorem decode_operandsNotZero {w : CmdWord} (hop : opField w = 10 ∨ opField w = 11) (hlow : w.toNat % 4096 ≠ 0) :
    decode w = .error .operandsNotZero := by
  have hfields : ¬ (pinField w = 0 ∧ (valField w).toNat = 0) := by
    rw [pinField_eq_div_mod, valField_toNat_eq_mod]
    omega
  rcases hop with hop | hop <;> simp only [decode, hop, formatZ_of_fields_ne_zero hfields]

theorem encode_render : encode .render = 0xB000#16 := rfl

/-- The words 0xB001 to 0xBFFF are reserved (R75). -/
theorem decode_render_operandsNotZero {n : Nat} (hpos : 0 < n) (hn : n < 4096) :
    decode (BitVec.ofNat 16 (0xB000 + n)) = .error .operandsNotZero := by
  have hword : (BitVec.ofNat 16 (0xB000 + n)).toNat = 0xB000 + n := Nat.mod_eq_of_lt (by omega)
  refine decode_operandsNotZero (.inr ?_) ?_
  · rw [opField_eq_div, hword]
    omega
  · rw [hword]
    omega

end Sys2Proof

namespace Sys2Proof.Machine

/-! ### The number and the bits of a response -/

/-- The status Ok has code 0, so a response (Ok, d) is the number `d` (R72). -/
theorem respWord_ok_toNat (d : BitVec 16) : (respWord .ok d).toNat = d.toNat :=
  (BitVec.toNat_append _ _).trans (by simp [Status.code])

/-- The data of a response are its low sixteen bits (R72). -/
theorem respWord_getLsbD_of_lt (st : Status) (d : BitVec 16) {i : Nat} (hi : i < 16) :
    (respWord st d).getLsbD i = d.getLsbD i := by
  rw [respWord, BitVec.getLsbD_append, if_pos hi]

/-! ### Two bytes side by side -/

/-- `{x, y}` as a number: x weighs 256 (R190). -/
theorem byte_append_toNat (x y : Byte) : (x ++ y).toNat = x.toNat * 256 + y.toNat := by
  rw [BitVec.toNat_append, ← Nat.shiftLeft_add_eq_or_of_lt y.isLt, Nat.shiftLeft_eq]

theorem byte_append_getLsbD_high (x y : Byte) (p : Nat) : (x ++ y).getLsbD (8 + p) = x.getLsbD p := by
  rw [BitVec.getLsbD_append, if_neg (by omega), Nat.add_sub_cancel_left]

theorem byte_append_getLsbD_low (x y : Byte) {p : Nat} (hp : p < 8) : (x ++ y).getLsbD p = y.getLsbD p := by
  rw [BitVec.getLsbD_append, if_pos hp]

/-! ### The command -/

/-- The response of RENDER: (Ok, {DATA, DIR}) (R190). -/
def State.rendered (s : State) : RespWord := respWord .ok (s.data ++ s.dir)

theorem exec_render_of_ready {s : State} (hr : s.ready = true) :
    exec .render s = .next { s with resp := some s.rendered } :=
  whenReady_of_ready hr

theorem State.rendered_toNat (s : State) : s.rendered.toNat = s.data.toNat * 256 + s.dir.toNat := by
  rw [State.rendered, respWord_ok_toNat, byte_append_toNat]

/-- Bit p of `data[15:8]` is what a single read of the pin in DATA gives (R100, R190). -/
theorem State.readBit_data_eq_rendered (s : State) {p : Nat} (hp : p < 8) :
    readBit s .data p = .ok (if s.rendered.getLsbD (8 + p) then 1#8 else 0#8) := by
  rw [State.rendered, respWord_getLsbD_of_lt _ _ (by omega), byte_append_getLsbD_high, ← Bool.cond_eq_ite]
  exact readBit_pinArg_of_lt s .data hp

/-- Bit p of `data[7:0]` is what a single read of the pin in DIR gives (R100, R190). -/
theorem State.readBit_dir_eq_rendered (s : State) {p : Nat} (hp : p < 8) :
    readBit s .dir p = .ok (if s.rendered.getLsbD p then 1#8 else 0#8) := by
  rw [State.rendered, respWord_getLsbD_of_lt _ _ (by omega), byte_append_getLsbD_low _ _ hp, ← Bool.cond_eq_ite]
  exact readBit_pinArg_of_lt s .dir hp

/-- Settles O21: the word by format Z; the response is `State.rendered`, whose number and bits are those of the two registers. -/
theorem renderAnswersBothRegisters : Obligations.RenderAnswersBothRegisters :=
  ⟨encode_render, decode_of_encode_eq rfl encode_render, fun _ hpos hn => decode_render_operandsNotZero hpos hn,
    fun s hr => ⟨s.rendered, exec_render_of_ready hr, s.rendered_toNat,
      fun _ hp => ⟨s.readBit_data_eq_rendered hp, s.readBit_dir_eq_rendered hp⟩⟩⟩

end Sys2Proof.Machine
end

section
/-! Errors of commands (60_exceptions.md R206): the response word names its status and its data, and each way a command can end
either shows an error in a state that is otherwise the one before, or shows none. -/

namespace Sys2Proof.Machine

/-! ### The status a response shows -/

/-- Status and data can be read back from a response word (R72). -/
theorem respWord_inj {st st' : Status} {d d' : BitVec 16} (h : respWord st d = respWord st' d') : st = st' ∧ d = d' := by
  have hcode : st.code = st'.code := by rw [← respWord_status st d, h, respWord_status]
  have hdata : d = d' := by rw [← respWord_data st d, h, respWord_data]
  exact ⟨Status.code_injective hcode, hdata⟩

/-- The block shows no error: its response, if there is one, is Ok. -/
def State.ShowsNoError (s : State) : Prop := ∀ (e : Status) (d : BitVec 16), s.resp = some (respWord e d) → e = .ok

theorem State.showsNoError_respond_ok (s : State) (d : BitVec 16) : (s.respond .ok d).ShowsNoError := fun _ _ hresp =>
  (respWord_inj (Option.some.inj hresp)).1.symm

/-- SEND has no response until its session ends (R150), so no error either. -/
theorem State.showsNoError_startSession (s : State) (c : Config) : (s.startSession c).ShowsNoError := fun _ _ hresp =>
  nomatch hresp

/-! ### How a command can end -/

/-- `t` is `s` but for the response (E, 0), or `t` shows no error (R206). -/
def FailsUnchanged (s t : State) : Prop := (∃ e, t = s.respond e 0#16) ∨ t.ShowsNoError

theorem failsUnchanged_completeRead (s : State) (r : Except Status Byte) : FailsUnchanged s (completeRead s r) := by
  cases r with
  | ok b => exact .inr (s.showsNoError_respond_ok _)
  | error e => exact .inl ⟨e, rfl⟩

/-- A procedure that raises gives no state, so the command answers in the state before it (R101, R121, R123). -/
theorem failsUnchanged_completeWrite (s : State) (r : Except Status State) : FailsUnchanged s (completeWrite s r) := by
  cases r with
  | ok t => exact .inr (t.showsNoError_respond_ok _)
  | error e => exact .inl ⟨e, rfl⟩

/-- The capacity is checked before the bits are appended (R140, R141). -/
theorem failsUnchanged_encodeByte (cap : Option Nat) (b : Byte) (s : State) : FailsUnchanged s (encodeByte cap b s) := by
  unfold encodeByte
  split
  case isTrue => exact .inl ⟨.bufferFull, rfl⟩
  case isFalse => exact .inr (State.showsNoError_respond_ok _ _)

/-- Every command is a step of a ready block to one of these ends (R27, R206). -/
theorem exec_eq_whenReady (i : Instr) (s : State) : ∃ t, exec i s = whenReady s t ∧ FailsUnchanged s t := by
  cases i with
  | rdbitData pin | rdbitDir pin | rdpin pin => exact ⟨_, rfl, failsUnchanged_completeRead s _⟩
  | wrbitData pin val | wrbitDir pin val | cfgdir pin val | wrpin pin val | tglpin pin =>
    exact ⟨_, rfl, failsUnchanged_completeWrite s _⟩
  | encb b => exact ⟨_, rfl, failsUnchanged_encodeByte _ b s⟩
  | send => exact ⟨_, rfl, .inr (s.showsNoError_startSession _)⟩
  | render => exact ⟨_, rfl, .inr (s.showsNoError_respond_ok _)⟩

/-- Settles O23: of the two ways a command ends, an error status leaves the first, and that one changes no field `ready` reads. -/
theorem failedCommandsChangeNothing : Obligations.FailedCommandsChangeNothing := by
  intro i s t e d hexec he hresp
  obtain ⟨n, hcommand, hend⟩ := exec_eq_whenReady i s
  obtain ⟨hready, rfl⟩ := whenReady_eq_next.1 (hcommand.symm.trans hexec)
  rcases hend with ⟨e', rfl⟩ | hok
  · obtain ⟨rfl, rfl⟩ := respWord_inj (Option.some.inj hresp)
    exact ⟨rfl, rfl, hready⟩
  · exact absurd (hok e d hresp) he

end Sys2Proof.Machine
end

section
/-! A whole session with both pins in range (43_serial_transmitter.md section 6): the state after each bit as a function of the
buffer, the micro-steps that reach it, the events it adds to the trace, and the end of a session as the one place where the
sequencer has no step. -/

namespace Sys2Proof.Machine

/-! ### The sequencer stops once -/

/-- The sequencer has a step at the ten running positions only (R27). -/
theorem microStep_of_not_sequencer (c : Config) {s : State} (h : s.seq.agent ≠ .sequencer) :
    microStep c s = .fault .noMicroStep := by
  rw [microStep]
  cases hs : s.seq with
  | idle | done | aborted => rfl
  | iReport | iSettle | iCfgData | iCfgClock | aToggle | aTick | tData | tStrobe | tReport | tTick =>
    exact absurd (by rw [hs]; rfl) h

/-- Past a state in which the sequencer has no step there is no run. -/
theorem microSteps_of_not_sequencer {c : Config} {k : Nat} {s t : State} (hs : s.seq.agent ≠ .sequencer)
    (h : microSteps c k s = .next t) : s = t := by
  cases k with
  | zero =>
    cases h
    rfl
  | succ k =>
    simp only [microSteps, microStep_of_not_sequencer c hs] at h
    cases h

/-- All runs of a session that come to a stop come to the same one (R27). -/
theorem microSteps_stop_unique {c : Config} {j k : Nat} {s t u : State} (ht : microSteps c j s = .next t)
    (htstop : t.seq.agent ≠ .sequencer) (hu : microSteps c k s = .next u) (hustop : u.seq.agent ≠ .sequencer) : t = u := by
  rcases Nat.le_total j k with hle | hle <;> obtain ⟨m, rfl⟩ := Nat.exists_eq_add_of_le hle
  · exact microSteps_of_not_sequencer htstop ((microSteps_add ht m).symm.trans hu)
  · exact (microSteps_of_not_sequencer hustop ((microSteps_add hu m).symm.trans ht)).symm

/-! ### The acknowledgment windows -/

/-- The acknowledgment windows at bit index `i`: one at the start of a byte (R165). -/
def acksAt (i : Nat) : Nat := if i % 8 = 0 then 1 else 0

theorem ackCount_succ (n : Nat) : ackCount (n + 1) = ackCount n + acksAt n := by
  unfold ackCount acksAt
  split <;> omega

/-! ### The state after each bit -/

/-- The state after the acknowledgment window before bit index `i`, if there is one (R157, R158). -/
def State.acked (s : State) (clock : Fin 8) (i : Nat) : State := if i % 8 = 0 then (s.toggled clock).tick else s

/-- The state in which bit index `i` stands on the DATA line (R159). -/
def State.bitWritten (s : State) (line clock : Fin 8) (i : Nat) (b : Bit) : State :=
  ({ s with idx := i }.acked clock i).putBit .data line b

/-- The state after bit index `i` (R157 to R162). -/
def State.bitSent (s : State) (line clock : Fin 8) (i : Nat) (b : Bit) : State :=
  ((s.bitWritten line clock i b).toggled clock).report.tick

/-- The state after the first `n` bits of BUF. -/
def State.sent (s : State) (line clock : Fin 8) : Nat → State
  | 0 => s
  | n + 1 => (s.sent line clock n).bitSent line clock n (s.buf.getD n 0#1)

section Sent

variable (s : State) (line clock : Fin 8) (i : Nat) (b : Bit)

@[simp] theorem State.toggled_buf : (s.toggled clock).buf = s.buf := s.putBit_buf _ _ _
@[simp] theorem State.toggled_idx : (s.toggled clock).idx = s.idx := s.putBit_idx _ _ _
@[simp] theorem State.toggled_abortCode : (s.toggled clock).abortCode = s.abortCode := s.putBit_abortCode _ _ _
@[simp] theorem State.toggled_host : (s.toggled clock).host = s.host := s.putBit_host _ _ _

@[simp] theorem State.acked_dir : (s.acked clock i).dir = s.dir := by unfold State.acked; split <;> rfl
@[simp] theorem State.acked_buf : (s.acked clock i).buf = s.buf := by unfold State.acked; split <;> rfl
@[simp] theorem State.acked_idx : (s.acked clock i).idx = s.idx := by unfold State.acked; split <;> rfl
@[simp] theorem State.acked_abortCode : (s.acked clock i).abortCode = s.abortCode := by unfold State.acked; split <;> rfl
@[simp] theorem State.acked_host : (s.acked clock i).host = s.host := by unfold State.acked; split <;> rfl

@[simp] theorem State.bitSent_dir : (s.bitSent line clock i b).dir = s.dir := by simp [State.bitSent, State.bitWritten]
@[simp] theorem State.bitSent_buf : (s.bitSent line clock i b).buf = s.buf := by simp [State.bitSent, State.bitWritten]
@[simp] theorem State.bitSent_abortCode : (s.bitSent line clock i b).abortCode = s.abortCode := by
  simp [State.bitSent, State.bitWritten]
@[simp] theorem State.bitSent_host : (s.bitSent line clock i b).host = s.host := by simp [State.bitSent, State.bitWritten]

@[simp] theorem State.sent_dir (n : Nat) : (s.sent line clock n).dir = s.dir := by
  induction n with
  | zero => rfl
  | succ n ih => rw [State.sent, State.bitSent_dir, ih]
@[simp] theorem State.sent_buf (n : Nat) : (s.sent line clock n).buf = s.buf := by
  induction n with
  | zero => rfl
  | succ n ih => rw [State.sent, State.bitSent_buf, ih]
@[simp] theorem State.sent_abortCode (n : Nat) : (s.sent line clock n).abortCode = s.abortCode := by
  induction n with
  | zero => rfl
  | succ n ih => rw [State.sent, State.bitSent_abortCode, ih]
@[simp] theorem State.sent_host (n : Nat) : (s.sent line clock n).host = s.host := by
  induction n with
  | zero => rfl
  | succ n ih => rw [State.sent, State.bitSent_host, ih]

end Sent

/-! ### The micro-steps of a bit -/

/-- Both roles' pins are in range and outputs of the state `s`, on the pins `line` and `clock`. -/
structure RolesReady (c : Config) (line clock : Fin 8) (s : State) : Prop where
  line_eq : c.dataPin.toNat = line.val
  clock_eq : c.clockPin.toNat = clock.val
  line_output : s.dir.getLsbD line.val = true
  clock_output : s.dir.getLsbD clock.val = true

section Bit

variable {c : Config} {line clock : Fin 8} {s : State}

theorem RolesReady.of_dir_eq {t : State} (h : RolesReady c line clock s) (ht : t.dir = s.dir) : RolesReady c line clock t :=
  ⟨h.line_eq, h.clock_eq, ht ▸ h.line_output, ht ▸ h.clock_output⟩

theorem RolesReady.togglePin (h : RolesReady c line clock s) : togglePin s (roleArg c.clockPin) = .ok (s.toggled clock) := by
  rw [roleArg_eq_pinArg, h.clock_eq]
  exact togglePin_of_output clock.isLt h.clock_output

theorem RolesReady.writePin (h : RolesReady c line clock s) (b : Bit) :
    writePin s (roleArg c.dataPin) b.toNat = .ok (s.putBit .data line b) := by
  rw [roleArg_eq_pinArg, h.line_eq, writePin_of_output line.isLt h.line_output]
  exact writeBit_val s .data line b

/-- The micro-steps of the acknowledgment window, two at the start of a byte and none inside it (R157, R158). -/
theorem RolesReady.microSteps_ackWindow (h : RolesReady c line clock s) {i : Nat} (hi : i < s.buf.length) :
    microSteps c (2 * acksAt i) (s.dispatch i) = .next (({ s with idx := i }.acked clock i).goto .tData) := by
  rw [State.dispatch_of_lt hi, acksAt, State.acked]
  split
  case isTrue =>
    have hroles : RolesReady c line clock { s with idx := i, seq := .aToggle } := h.of_dir_eq rfl
    rw [microSteps_succ_of_next (microStep_aToggle c rfl), stepAToggle, hroles.togglePin, orAbort_ok,
      microSteps_one_of_next (microStep_aTick c rfl)]
    rfl
  case isFalse => rfl

/-- The four micro-steps T_DATA, T_STROBE, T_REPORT and T_TICK of the bit at IDX (R159 to R162). -/
theorem RolesReady.microSteps_transmit (h : RolesReady c line clock s) {b : Bit} (hb : s.buf[s.idx]? = some b) :
    microSteps c 4 (s.goto .tData) =
      .next (((s.putBit .data line b).toggled clock).report.tick.dispatch (s.idx + 1)) := by
  have hdata : RolesReady c line clock (s.goto .tData) := h.of_dir_eq rfl
  have hstrobe : RolesReady c line clock (((s.goto .tData).putBit .data line b).goto .tStrobe) := h.of_dir_eq rfl
  rw [microSteps_succ_of_next (microStep_tData c (s := s.goto .tData) rfl hb), stepTData, hdata.writePin, orAbort_ok,
    microSteps_succ_of_next (microStep_tStrobe c rfl), stepTStrobe, hstrobe.togglePin, orAbort_ok,
    microSteps_succ_of_next (microStep_tReport c rfl), microSteps_one_of_next (microStep_tTick c rfl)]
  rfl

/-- Four micro-steps send a bit, and two more its acknowledgment window (R157 to R162). -/
theorem RolesReady.microSteps_bitSent (h : RolesReady c line clock s) {i : Nat} {b : Bit} (hb : s.buf[i]? = some b) :
    microSteps c (2 * acksAt i + 4) (s.dispatch i) = .next ((s.bitSent line clock i b).dispatch (i + 1)) := by
  have hlt : i < s.buf.length := (List.getElem?_eq_some_iff.1 hb).1
  have hroles : RolesReady c line clock ({ s with idx := i }.acked clock i) := h.of_dir_eq (State.acked_dir _ _ _)
  rw [microSteps_add (h.microSteps_ackWindow hlt), hroles.microSteps_transmit (b := b) (by simpa using hb), State.acked_idx]
  rfl

/-- The micro-steps of the first `n` bits: four for each, and two more for each acknowledgment window (R165, R166). -/
theorem RolesReady.microSteps_sent (h : RolesReady c line clock s) {n : Nat} (hn : n ≤ s.buf.length) :
    microSteps c (4 * n + 2 * ackCount n) (s.dispatch 0) = .next ((s.sent line clock n).dispatch n) := by
  induction n with
  | zero => rfl
  | succ n ih =>
    have hb : (s.sent line clock n).buf[n]? = some (s.buf.getD n 0#1) := by simp [Nat.lt_of_succ_le hn]
    have hcount : 4 * (n + 1) + 2 * ackCount (n + 1) = (4 * n + 2 * ackCount n) + (2 * acksAt n + 4) := by
      rw [ackCount_succ]
      omega
    rw [hcount, microSteps_add (ih (Nat.le_of_succ_le hn)), (h.of_dir_eq (s.sent_dir _ _ n)).microSteps_bitSent hb]
    rfl

end Bit

/-! ### The whole session -/

/-- The end of a session with both pins in range (R163). -/
def State.transmitted (s : State) (c : Config) (hd : c.dataPin.toNat < 8) (hc : c.clockPin.toNat < 8) : State :=
  ((s.configured c hd hc).sent ⟨c.dataPin.toNat, hd⟩ ⟨c.clockPin.toNat, hc⟩ s.buf.length).finish

section Session

variable (c : Config) (s : State) (hd : c.dataPin.toNat < 8) (hc : c.clockPin.toNat < 8)

@[simp] theorem State.configured_buf : (s.configured c hd hc).buf = s.buf := by simp [State.configured]
@[simp] theorem State.configured_data : (s.configured c hd hc).data = s.data := by simp [State.configured]
@[simp] theorem State.configured_abortCode : (s.configured c hd hc).abortCode = .ok := by simp [State.configured]
@[simp] theorem State.configured_host : (s.configured c hd hc).host = s.host := by simp [State.configured]

/-- Both roles' pins are outputs once configured, and no other direction has changed (R155, R156). -/
theorem State.configured_dir_getLsbD {q : Nat} (hq : q < 8) : (s.configured c hd hc).dir.getLsbD q =
    (decide (q = c.dataPin.toNat) || decide (q = c.clockPin.toNat) || s.dir.getLsbD q) := by
  rw [State.configured, State.putBit_dir_one_getLsbD _ hc hq, State.putBit_dir_one_getLsbD _ hd hq, ← Bool.or_assoc,
    Bool.or_comm (decide (q = c.clockPin.toNat))]
  rfl

theorem State.rolesReady_configured :
    RolesReady c ⟨c.dataPin.toNat, hd⟩ ⟨c.clockPin.toNat, hc⟩ (s.configured c hd hc) where
  line_eq := rfl
  clock_eq := rfl
  line_output := by simp [s.configured_dir_getLsbD c hd hc hd]
  clock_output := by simp [s.configured_dir_getLsbD c hd hc hc]

/-- With both pins in range a session of n bits takes SETTLE_TICKS + 4 + 4n + 2a micro-steps to its end (R163, R166). -/
theorem microSteps_transmitted :
    microSteps c (c.settleTicks + 4 + 4 * s.buf.length + 2 * ackCount s.buf.length) (s.startSession c) =
      .next (s.transmitted c hd hc) := by
  have hsent := (s.rolesReady_configured c hd hc).microSteps_sent (n := s.buf.length) (by simp)
  rw [Nat.add_assoc, microSteps_add (microSteps_startSession_configured c s hd hc), hsent,
    State.dispatch_of_length_le (by simp)]
  rfl

/-- With both pins in range a session that stops has this end. -/
theorem eq_transmitted_of_stop {k : Nat} {t : State} (hrun : microSteps c k (s.startSession c) = .next t)
    (hstop : t.seq.agent ≠ .sequencer) : t = s.transmitted c hd hc :=
  microSteps_stop_unique hrun hstop (microSteps_transmitted c s hd hc) nofun

end Session

/-- Settles O33: the end is `State.transmitted`, in which the bits have left DIR as the configurations made it. -/
theorem sessionsReachDone : Obligations.SessionsReachDone := by
  intro c s hd hc
  refine ⟨s.transmitted c hd hc, microSteps_transmitted c s hd hc, rfl, rfl, rfl, ?_, rfl, ?_, fun q hq => ?_⟩
  · simp [State.transmitted]
  · simp [State.transmitted]
  · rw [State.transmitted, State.finish_dir, State.sent_dir, s.configured_dir_getLsbD c hd hc hq]

end Sys2Proof.Machine
end

section
/-! The trace and the registers of a whole session (43_serial_transmitter.md section 6): the events of each bit as one block, what
a block holds of each kind (R166, R167), and the bits of DATA after the bits of the buffer (R143, R166, R170). -/

namespace Sys2Proof.Machine

/-! ### The kinds of events -/

section Kinds

variable (q : Nat) (p : Fin 8) (r : Reg) (v : Bit) (x y : Byte)

@[simp] theorem Event.isReport_write : (Event.write r p v).isReport = false := rfl
@[simp] theorem Event.isReport_report : (Event.report x y).isReport = true := rfl
@[simp] theorem Event.isReport_tick : Event.tick.isReport = false := rfl
@[simp] theorem Event.isTick_write : (Event.write r p v).isTick = false := rfl
@[simp] theorem Event.isTick_report : (Event.report x y).isTick = false := rfl
@[simp] theorem Event.isTick_tick : Event.tick.isTick = true := rfl
@[simp] theorem Event.isWrite_write : (Event.write r p v).isWrite = true := rfl
@[simp] theorem Event.isWrite_report : (Event.report x y).isWrite = false := rfl
@[simp] theorem Event.isWrite_tick : Event.tick.isWrite = false := rfl
@[simp] theorem Event.dataWrite?_write_data :
    (Event.write .data p v).dataWrite? q = if p.val = q then some v else none := rfl
@[simp] theorem Event.dataWrite?_write_dir : (Event.write .dir p v).dataWrite? q = none := rfl
@[simp] theorem Event.dataWrite?_report : (Event.report x y).dataWrite? q = none := rfl
@[simp] theorem Event.dataWrite?_tick : Event.tick.dataWrite? q = none := rfl

end Kinds

/-! ### The events of a bit -/

/-- The events of an acknowledgment window that writes `a` to CLOCK (R157, R158). -/
def ackEvents (clock : Fin 8) (i : Nat) (a : Bit) : List Event :=
  if i % 8 = 0 then [.write .data clock a, .tick] else []

/-- The events of bit index `i` (R167): the levels `a` and `strobe` written to CLOCK, and the bytes `d` and `r` of the report. -/
def bitEvents (line clock : Fin 8) (i : Nat) (b a strobe : Bit) (d r : Byte) : List Event :=
  ackEvents clock i a ++ [.write .data line b, .write .data clock strobe, .report d r, .tick]

/-- The events that sending bit index `i` adds to the trace of `s`. -/
def State.eventsOfBit (s : State) (line clock : Fin 8) (i : Nat) (b : Bit) : List Event :=
  let u := s.bitWritten line clock i b
  bitEvents line clock i b (BitVec.ofBool (!s.data.getLsbD clock.val)) (BitVec.ofBool (!u.data.getLsbD clock.val))
    (u.toggled clock).data (u.toggled clock).dir

/-- The events of each of the first `n` bits of BUF. -/
def State.blocks (s : State) (line clock : Fin 8) (n : Nat) : List (List Event) :=
  (List.range n).map fun i => (s.sent line clock i).eventsOfBit line clock i (s.buf.getD i 0#1)

/-- The events of the first `n` bits of BUF. -/
def State.eventsOfBits (s : State) (line clock : Fin 8) (n : Nat) : List Event := (s.blocks line clock n).flatten

section Trace

variable (s : State) (line clock : Fin 8) (i : Nat) (b : Bit)

theorem State.toggled_trace :
    (s.toggled clock).trace = s.trace ++ [.write .data clock (BitVec.ofBool (!s.data.getLsbD clock.val))] :=
  s.putBit_trace _ _ _

theorem State.acked_trace :
    (s.acked clock i).trace = s.trace ++ ackEvents clock i (BitVec.ofBool (!s.data.getLsbD clock.val)) := by
  unfold State.acked ackEvents
  split
  · rw [State.tick_trace, State.toggled_trace, List.append_assoc]
    rfl
  · rw [List.append_nil]

theorem State.bitSent_trace :
    (s.bitSent line clock i b).trace = s.trace ++ s.eventsOfBit line clock i b := by
  rw [State.bitSent, State.tick_trace, State.report_trace, State.toggled_trace, State.bitWritten, State.putBit_trace,
    State.acked_trace]
  simp [State.eventsOfBit, bitEvents, State.bitWritten]

theorem State.eventsOfBits_succ (n : Nat) : s.eventsOfBits line clock (n + 1) =
    s.eventsOfBits line clock n ++ (s.sent line clock n).eventsOfBit line clock n (s.buf.getD n 0#1) := by
  simp [State.eventsOfBits, State.blocks, List.range_succ]

theorem State.sent_trace (n : Nat) : (s.sent line clock n).trace = s.trace ++ s.eventsOfBits line clock n := by
  induction n with
  | zero => exact (List.append_nil _).symm
  | succ n ih => rw [State.sent, State.bitSent_trace, ih, State.eventsOfBits_succ, List.append_assoc]

theorem State.blocks_length (n : Nat) : (s.blocks line clock n).length = n := by simp [State.blocks]

theorem State.blocks_getElem? {n : Nat} (hi : i < n) : (s.blocks line clock n)[i]? =
    some ((s.sent line clock i).eventsOfBit line clock i (s.buf.getD i 0#1)) := by
  simp [State.blocks, hi]

end Trace

/-! ### The events of a session -/

/-- The events before the first bit: the report, the settle ticks and the two configurations (R153 to R156). -/
def State.openingEvents (s : State) (c : Config) (line clock : Fin 8) : List Event :=
  [.report s.data s.dir] ++ List.replicate c.settleTicks .tick ++ [.write .dir line 1#1, .write .dir clock 1#1]

/-- The events of a session with both pins in range (R167). -/
def State.sessionEvents (s : State) (c : Config) (hd : c.dataPin.toNat < 8) (hc : c.clockPin.toNat < 8) : List Event :=
  s.openingEvents c ⟨c.dataPin.toNat, hd⟩ ⟨c.clockPin.toNat, hc⟩ ++
    (s.configured c hd hc).eventsOfBits ⟨c.dataPin.toNat, hd⟩ ⟨c.clockPin.toNat, hc⟩ s.buf.length

section Session

variable (s : State) (c : Config) (hd : c.dataPin.toNat < 8) (hc : c.clockPin.toNat < 8)

theorem State.configured_trace : (s.configured c hd hc).trace =
    s.trace ++ s.openingEvents c ⟨c.dataPin.toNat, hd⟩ ⟨c.clockPin.toNat, hc⟩ := by
  simp [State.configured, State.openingEvents]

theorem State.transmitted_trace : (s.transmitted c hd hc).trace = s.trace ++ s.sessionEvents c hd hc := by
  rw [State.transmitted, State.finish_trace, State.sent_trace, State.configured_trace, State.sessionEvents,
    List.append_assoc]

end Session

/-- Settles O35: the blocks are those of `State.blocks`, each the `bitEvents` of its bit. -/
theorem sessionTraceHasTheOrderOfTheBits : Obligations.SessionTraceHasTheOrderOfTheBits := by
  intro c s hd hc k t hrun hdone
  rw [eq_transmitted_of_stop c s hd hc hrun (by rw [hdone]; nofun)]
  refine ⟨(s.configured c hd hc).blocks ⟨_, hd⟩ ⟨_, hc⟩ s.buf.length, ?_, State.blocks_length _ _ _ _, fun i b hb => ?_⟩
  · simp [State.transmitted_trace, State.sessionEvents, State.openingEvents, State.eventsOfBits]
  · have hi : i < s.buf.length := (List.getElem?_eq_some_iff.1 hb).1
    have hbit : (s.configured c hd hc).buf.getD i 0#1 = b := by simp [hb]
    rw [State.blocks_getElem? _ _ _ _ hi, hbit]
    exact ⟨_, _, _, _, rfl⟩

/-! ### Counting events -/

/-- A count of events that is additive, and `x` for each bit and `y` for each acknowledgment window, is so for `n` bits. -/
theorem State.count_eventsOfBits (s : State) (line clock : Fin 8) {count : List Event → Nat} {x y : Nat}
    (hnil : count [] = 0) (happend : ∀ es fs, count (es ++ fs) = count es + count fs)
    (hbit : ∀ i b a strobe d r, count (bitEvents line clock i b a strobe d r) = x + y * acksAt i) (n : Nat) :
    count (s.eventsOfBits line clock n) = x * n + y * ackCount n := by
  induction n with
  | zero => exact hnil
  | succ n ih =>
    rw [State.eventsOfBits_succ, happend, ih, State.eventsOfBit, hbit, ackCount_succ]
    ring

section Counts

variable (line clock : Fin 8) (i : Nat) (b a strobe : Bit) (d r : Byte)

theorem bitEvents_reports : (bitEvents line clock i b a strobe d r).countP Event.isReport = 1 + 0 * acksAt i := by
  unfold bitEvents ackEvents
  split <;> simp [List.countP_cons]

theorem bitEvents_ticks : (bitEvents line clock i b a strobe d r).countP Event.isTick = 1 + 1 * acksAt i := by
  unfold bitEvents ackEvents acksAt
  split <;> simp [List.countP_cons]

theorem bitEvents_writes : (bitEvents line clock i b a strobe d r).countP Event.isWrite = 2 + 1 * acksAt i := by
  unfold bitEvents ackEvents acksAt
  split <;> simp [List.countP_cons]

/-- On another pin than CLOCK, the DATA line shows the bit and nothing else (R143). -/
theorem bitEvents_line (h : line ≠ clock) :
    (bitEvents line clock i b a strobe d r).filterMap (Event.dataWrite? line.val) = [b] := by
  have hne : clock.val ≠ line.val := fun he => h (Fin.ext he.symm)
  unfold bitEvents ackEvents
  split <;> simp [List.filterMap_cons, hne]

theorem bitEvents_clock (h : line ≠ clock) :
    ((bitEvents line clock i b a strobe d r).filterMap (Event.dataWrite? clock.val)).length = 1 + 1 * acksAt i := by
  have hne : line.val ≠ clock.val := fun he => h (Fin.ext he)
  unfold bitEvents ackEvents acksAt
  split <;> simp [List.filterMap_cons, hne]

/-- No third pin is written (R143). -/
theorem bitEvents_other {q : Nat} (hl : q ≠ line.val) (hk : q ≠ clock.val) :
    (bitEvents line clock i b a strobe d r).filterMap (Event.dataWrite? q) = [] := by
  unfold bitEvents ackEvents
  split <;> simp [List.filterMap_cons, hl.symm, hk.symm]

end Counts

section Opening

variable (s : State) (c : Config) (line clock : Fin 8)

theorem State.openingEvents_reports : (s.openingEvents c line clock).countP Event.isReport = 1 := by
  simp [State.openingEvents, List.countP_cons, List.countP_replicate]
theorem State.openingEvents_ticks : (s.openingEvents c line clock).countP Event.isTick = c.settleTicks := by
  simp [State.openingEvents, List.countP_replicate]
theorem State.openingEvents_writes : (s.openingEvents c line clock).countP Event.isWrite = 2 := by
  simp [State.openingEvents, List.countP_cons, List.countP_replicate]
/-- Nothing is written to DATA before the first bit (R153 to R156). -/
theorem State.openingEvents_dataWrites (q : Nat) :
    (s.openingEvents c line clock).filterMap (Event.dataWrite? q) = [] := by
  have hticks := List.filterMap_replicate_of_none (n := c.settleTicks) (Event.dataWrite?_tick q)
  rw [State.openingEvents, List.filterMap_append, List.filterMap_append, hticks]
  rfl

end Opening

/-! ### DATA after the bits -/

section Data

variable (s : State) (line clock : Fin 8) (i : Nat) (b : Bit)

/-- A toggle complements the bit of its pin and leaves every other bit of DATA (R123). -/
theorem State.toggled_getLsbD (q : Fin 8) : (s.toggled clock).data.getLsbD q.val =
    if q = clock then !s.data.getLsbD q.val else s.data.getLsbD q.val := by
  simpa only [Fin.ext_iff] using s.toggled_data_getLsbD clock.isLt q.isLt

theorem State.acked_getLsbD (q : Fin 8) : (s.acked clock i).data.getLsbD q.val =
    if q = clock ∧ acksAt i = 1 then !s.data.getLsbD q.val else s.data.getLsbD q.val := by
  unfold State.acked acksAt
  split
  · simp only [State.tick_data, State.toggled_getLsbD, and_true]
  · simp only [zero_ne_one, and_false, if_false]

/-- The DATA line holds the bit, and the window before it is the only change to another pin (R157, R159). -/
theorem State.bitWritten_getLsbD (q : Fin 8) : (s.bitWritten line clock i b).data.getLsbD q.val =
    if q = line then decide (b = 1#1)
    else if q = clock ∧ acksAt i = 1 then !s.data.getLsbD q.val else s.data.getLsbD q.val := by
  rw [State.bitWritten]
  refine (State.putBit_getLsbD _ .data .data line q b).trans ?_
  simp only [true_and, State.reg_data, State.acked_getLsbD]

/-- What a bit of the buffer does to a bit of DATA (R157 to R160). -/
theorem State.bitSent_getLsbD (q : Fin 8) : (s.bitSent line clock i b).data.getLsbD q.val =
    if q = clock then !(s.bitWritten line clock i b).data.getLsbD q.val
    else (s.bitWritten line clock i b).data.getLsbD q.val :=
  State.toggled_getLsbD _ _ _

/-- Bits of DATA other than those of the two roles are as they were (R143). -/
theorem State.sent_getLsbD_other {q : Fin 8} (hl : q ≠ line) (hk : q ≠ clock) (n : Nat) :
    (s.sent line clock n).data.getLsbD q.val = s.data.getLsbD q.val := by
  induction n with
  | zero => rfl
  | succ n ih =>
    rw [State.sent, State.bitSent_getLsbD, if_neg hk, State.bitWritten_getLsbD, if_neg hl, if_neg fun h => hk h.1, ih]

/-- On a pin of its own, CLOCK is complemented once for each bit and once for each acknowledgment window (R166). -/
theorem State.sent_getLsbD_clock (h : clock ≠ line) (n : Nat) : (s.sent line clock n).data.getLsbD clock.val =
    if (n + ackCount n) % 2 = 1 then !s.data.getLsbD clock.val else s.data.getLsbD clock.val := by
  induction n with
  | zero => rfl
  | succ n ih =>
    have hacks : acksAt n = 0 ∨ acksAt n = 1 := by
      unfold acksAt
      split <;> simp
    have hparity : (n + 1 + ackCount (n + 1)) % 2 = 1 ↔ ((n + ackCount n) % 2 = 1 ↔ acksAt n = 1) := by
      rw [ackCount_succ]
      omega
    rw [State.sent, State.bitSent_getLsbD, if_pos rfl, State.bitWritten_getLsbD, if_neg h, ih]
    simp only [hparity, true_and]
    by_cases hn : (n + ackCount n) % 2 = 1 <;> by_cases ha : acksAt n = 1 <;> simp only [hn, ha] <;> simp

/-- On the pin of the DATA line, the strobe complements the bit just written (R170). -/
theorem State.sent_getLsbD_shared (n : Nat) : (s.sent line line (n + 1)).data.getLsbD line.val =
    !decide (s.buf.getD n 0#1 = 1#1) := by
  rw [State.sent, State.bitSent_getLsbD, if_pos rfl, State.bitWritten_getLsbD, if_pos rfl]

/-- The levels written to the DATA line for the first `n` bits of BUF are those bits (R143). -/
theorem State.eventsOfBits_line (h : line ≠ clock) {n : Nat} (hn : n ≤ s.buf.length) :
    (s.eventsOfBits line clock n).filterMap (Event.dataWrite? line.val) = s.buf.take n := by
  induction n with
  | zero => rfl
  | succ n ih =>
    rw [State.eventsOfBits_succ, List.filterMap_append, ih (Nat.le_of_succ_le hn), State.eventsOfBit,
      bitEvents_line _ _ _ _ _ _ _ _ h, List.take_add_one]
    simp [Nat.lt_of_succ_le hn]

theorem State.eventsOfBits_other {q : Nat} (hl : q ≠ line.val) (hk : q ≠ clock.val) (n : Nat) :
    (s.eventsOfBits line clock n).filterMap (Event.dataWrite? q) = [] := by
  induction n with
  | zero => rfl
  | succ n ih =>
    rw [State.eventsOfBits_succ, List.filterMap_append, ih, State.eventsOfBit, bitEvents_other _ _ _ _ _ _ _ _ hl hk,
      List.append_nil]

end Data

/-! ### Counts and levels of a whole session -/

section Whole

variable {c : Config} (s : State) (hd : c.dataPin.toNat < 8) (hc : c.clockPin.toNat < 8)

theorem roles_ne (hne : c.dataPin ≠ c.clockPin) : (⟨c.dataPin.toNat, hd⟩ : Fin 8) ≠ ⟨c.clockPin.toNat, hc⟩ := fun h =>
  hne (BitVec.eq_of_toNat_eq (Fin.mk.inj h))

/-- An additive count of the events of a session, from those of its opening and of one bit. -/
theorem State.count_sessionEvents {count : List Event → Nat} {x y : Nat} (hnil : count [] = 0)
    (happend : ∀ es fs, count (es ++ fs) = count es + count fs)
    (hbit : ∀ i b a strobe d r, count (bitEvents ⟨_, hd⟩ ⟨_, hc⟩ i b a strobe d r) = x + y * acksAt i) :
    count (s.sessionEvents c hd hc) =
      count (s.openingEvents c ⟨_, hd⟩ ⟨_, hc⟩) + (x * s.buf.length + y * ackCount s.buf.length) := by
  rw [State.sessionEvents, happend, State.count_eventsOfBits _ _ _ hnil happend hbit]

/-- On distinct pins the DATA line shows BUF (R143). -/
theorem State.sessionEvents_line (hne : c.dataPin ≠ c.clockPin) :
    (s.sessionEvents c hd hc).filterMap (Event.dataWrite? c.dataPin.toNat) = s.buf := by
  rw [State.sessionEvents, List.filterMap_append, State.openingEvents_dataWrites, List.nil_append,
    State.eventsOfBits_line _ _ _ (roles_ne hd hc hne) (by simp), State.configured_buf, List.take_length]

theorem State.sessionEvents_other {q : Nat} (hl : q ≠ c.dataPin.toNat) (hk : q ≠ c.clockPin.toNat) :
    (s.sessionEvents c hd hc).filterMap (Event.dataWrite? q) = [] := by
  rw [State.sessionEvents, List.filterMap_append, State.openingEvents_dataWrites, List.nil_append,
    State.eventsOfBits_other _ _ _ hl hk]

end Whole

/-- Settles O36: each count is that of the opening and of the blocks; CLOCK by the number of its toggles. -/
theorem sessionEventsAreCounted : Obligations.SessionEventsAreCounted := by
  intro c s k t hd hc hne hrun hdone
  rw [eq_transmitted_of_stop c s hd hc hrun (by rw [hdone]; nofun)]
  have hroles := roles_ne hd hc hne
  have happend (P : Event → Bool) (es fs : List Event) : (es ++ fs).countP P = es.countP P + fs.countP P :=
    List.countP_append
  refine ⟨s.sessionEvents c hd hc, s.transmitted_trace c hd hc, ?_, ?_, ?_, ?_, ?_, ?_⟩
  · rw [s.count_sessionEvents hd hc rfl (happend _) (bitEvents_reports _ _), State.openingEvents_reports]
    omega
  · rw [s.count_sessionEvents hd hc rfl (happend _) (bitEvents_ticks _ _), State.openingEvents_ticks]
    omega
  · rw [s.count_sessionEvents hd hc rfl (happend _) (bitEvents_writes _ _), State.openingEvents_writes]
    omega
  · rw [s.sessionEvents_line hd hc hne]
  · rw [s.count_sessionEvents hd hc (count := fun es => (es.filterMap (Event.dataWrite? c.clockPin.toNat)).length) rfl
        (fun _ _ => by rw [List.filterMap_append, List.length_append])
        (fun i b a strobe d r => bitEvents_clock _ _ i b a strobe d r hroles),
      State.openingEvents_dataWrites, List.length_nil]
    omega
  · exact (State.sent_getLsbD_clock _ _ ⟨_, hc⟩ hroles.symm _).trans (by rw [State.configured_data])

/-- Settles O37: the levels on the DATA line are one for each bit; no block writes a third pin. -/
theorem dataLineCarriesTheBuffer : Obligations.DataLineCarriesTheBuffer := by
  intro c s k t hd hc hne hrun hdone
  rw [eq_transmitted_of_stop c s hd hc hrun (by rw [hdone]; nofun)]
  refine ⟨s.sessionEvents c hd hc, s.transmitted_trace c hd hc, s.sessionEvents_line hd hc hne, fun q hq hl hk =>
    ⟨?_, s.sessionEvents_other hd hc hl hk⟩⟩
  exact (State.sent_getLsbD_other _ _ _ (q := ⟨q, hq⟩) (fun h => hl (congrArg Fin.val h))
    (fun h => hk (congrArg Fin.val h)) _).trans (by rw [State.configured_data])

/-- Settles O39: the last bit is written and then complemented by its strobe, on the same pin. -/
theorem sharedPinEndsAtTheComplement : Obligations.SharedPinEndsAtTheComplement := by
  intro c s k t b hd hshared hlast hrun hdone
  have hc : c.clockPin.toNat < 8 := by rw [hshared]; exact hd
  have hclock : (⟨c.clockPin.toNat, hc⟩ : Fin 8) = ⟨c.dataPin.toNat, hd⟩ := Fin.ext (congrArg BitVec.toNat hshared)
  rw [eq_transmitted_of_stop c s hd hc hrun (by rw [hdone]; nofun), State.transmitted, State.finish_data, hclock]
  obtain ⟨n, hn⟩ : ∃ n, s.buf.length = n + 1 := by
    refine Nat.exists_eq_add_one_of_ne_zero fun h => ?_
    rw [List.length_eq_zero_iff.1 h] at hlast
    cases hlast
  have hbit : (s.configured c hd hc).buf.getD n 0#1 = b := by
    rw [List.getLast?_eq_getElem?, hn, Nat.add_sub_cancel] at hlast
    simp [hlast]
  rw [hn]
  refine (State.sent_getLsbD_shared _ ⟨_, hd⟩ n).trans ?_
  rw [hbit]
  rcases bit_zero_or_one b with rfl | rfl <;> rfl

end Sys2Proof.Machine
end

section
/-! A session with a pin out of range (43_serial_transmitter.md R168, 60_exceptions.md R207): the two ways to ABORTED, and no
other. -/

namespace Sys2Proof.Machine

/-- What an abort on a bad pin leaves of the state `s` before SEND: InvalidPin, and DIR but for the DATA line's bit (R168). -/
structure BadPinEnd (c : Config) (s t : State) : Prop where
  seq_eq : t.seq = .aborted
  abortCode_eq : t.abortCode = .invalidPin
  resp_eq : t.resp = some 0x10000#20
  data_eq : t.data = s.data
  buf_eq : t.buf = s.buf
  dir_bits : ∀ q : Nat, q < 8 → t.dir.getLsbD q = (decide (q = c.dataPin.toNat) || s.dir.getLsbD q)

/-- A DATA line out of range aborts the session at I_CFG_DATA, with DIR unchanged (R155). -/
theorem session_aborts_of_bad_dataPin (c : Config) (s : State) (hd : 7 < c.dataPin.toNat) :
    ∃ k t, microSteps c k (s.startSession c) = .next t ∧ BadPinEnd c s t := by
  have hrun := microSteps_add (microSteps_startSession c s) 1
  rw [microSteps_one_of_next (microStep_iCfgData c (State.goto_seq _ _)), stepICfgData, configureDirection_role_of_gt _ hd,
    orAbort_error] at hrun
  refine ⟨_, _, hrun, rfl, rfl, rfl, rfl, rfl, fun q hq => ?_⟩
  have hne : q ≠ c.dataPin.toNat := by omega
  simp [hne]

/-- A CLOCK out of range aborts the session at I_CFG_CLOCK, with the DATA line already an output (R156). -/
theorem session_aborts_of_bad_clockPin (c : Config) (s : State) (hd : c.dataPin.toNat < 8) (hc : 7 < c.clockPin.toNat) :
    ∃ k t, microSteps c k (s.startSession c) = .next t ∧ BadPinEnd c s t := by
  have hrun := microSteps_add (microSteps_startSession c s) 2
  rw [microSteps_succ_of_next (microStep_iCfgData c (State.goto_seq _ _)), stepICfgData, configureDirection_role_of_lt _ hd,
    orAbort_ok, microSteps_one_of_next (microStep_iCfgClock c (State.goto_seq _ _)), stepICfgClock,
    configureDirection_role_of_gt _ hc, orAbort_error] at hrun
  exact ⟨_, _, hrun, rfl, rfl, rfl, rfl, rfl, fun q hq => State.putBit_dir_one_getLsbD _ hd hq⟩

theorem session_aborts_of_bad_pin (c : Config) (s : State) (hbad : 7 < c.dataPin.toNat ∨ 7 < c.clockPin.toNat) :
    ∃ k t, microSteps c k (s.startSession c) = .next t ∧ BadPinEnd c s t := by
  rcases Nat.lt_or_ge c.dataPin.toNat 8 with hd | hd
  · exact session_aborts_of_bad_clockPin c s hd (by omega)
  · exact session_aborts_of_bad_dataPin c s hd

/-- Settles O34: a session stops in one state only, which is DONE with both pins in range and `BadPinEnd` otherwise. -/
theorem sessionsAbortOnlyOnABadPin : Obligations.SessionsAbortOnlyOnABadPin := by
  intro c s
  refine ⟨fun k t hrun hseq => ?_, fun hbad => ?_⟩
  · have hstop : t.seq.agent ≠ .sequencer := by rw [hseq]; nofun
    have hbad : 7 < c.dataPin.toNat ∨ 7 < c.clockPin.toNat := by
      by_contra hgood
      rw [eq_transmitted_of_stop c s (by omega) (by omega) hrun hstop] at hseq
      cases hseq
    obtain ⟨j, u, hrun', hend⟩ := session_aborts_of_bad_pin c s hbad
    obtain rfl := microSteps_stop_unique hrun hstop hrun' (by rw [hend.seq_eq]; nofun)
    exact ⟨hbad, hend.abortCode_eq, hend.resp_eq, hend.data_eq, hend.buf_eq, hend.dir_bits⟩
  · obtain ⟨k, t, hrun, hend⟩ := session_aborts_of_bad_pin c s hbad
    exact ⟨k, t, hrun, hend.seq_eq⟩

end Sys2Proof.Machine
end

section
/-! The steps of the machine (10_state.md R27, 60_exceptions.md R208, 70_reset_and_hazards.md R230): which agent steps, what stays
with the host, and what ABORTED allows. -/

namespace Sys2Proof.Machine

/-! ### A step by the agent that takes it -/

section Agents

variable {s : State}

theorem step_of_reset_due {rest : List HostInput} (h : s.host = .resetAfter 0 :: rest) : step s = .next (resetBlock rest) := by
  simp only [step, h]

/-- No reset is due: the first input is none, a command, or a reset that is some steps away. -/
theorem State.resetNow_eq_false_iff : s.resetNow = false ↔ ∀ rest, s.host ≠ .resetAfter 0 :: rest := by
  unfold State.resetNow
  split
  case h_1 rest h => simp [h]
  case h_2 h => exact iff_of_true rfl h

theorem step_of_sequencer (hreset : s.resetNow = false) (h : s.seq.agent = .sequencer) :
    step s = microStep Config.block s.countdown := by
  unfold step
  split
  case h_1 rest hhost => exact absurd hhost (State.resetNow_eq_false_iff.1 hreset rest)
  case h_2 => rw [h]

theorem step_of_host (hreset : s.resetNow = false) (h : s.seq.agent = .host) : step s = hostTurn s := by
  unfold step
  split
  case h_1 rest hhost => exact absurd hhost (State.resetNow_eq_false_iff.1 hreset rest)
  case h_2 => rw [h]

theorem step_of_nobody (hreset : s.resetNow = false) (h : s.seq.agent = .nobody) : step s = abortedTurn s := by
  unfold step
  split
  case h_1 rest hhost => exact absurd hhost (State.resetNow_eq_false_iff.1 hreset rest)
  case h_2 => rw [h]

theorem SeqPos.agent_eq_nobody_iff {p : SeqPos} : p.agent = .nobody ↔ p = .aborted := by
  cases p <;> simp [SeqPos.agent]

theorem resetNow_of_onlyCommands (h : onlyCommands s.host = true) : s.resetNow = false := by
  refine State.resetNow_eq_false_iff.2 fun rest hhost => ?_
  rw [hhost] at h
  simp [onlyCommands] at h

/-- A reset that is to come is one step nearer (log 3). -/
theorem State.countdown_host_of_waiting {n : Nat} {rest : List HostInput} (h : s.host = .resetAfter (n + 1) :: rest) :
    s.countdown.host = .resetAfter n :: rest := by
  simp [State.countdown, h]

end Agents

/-- The host's inputs stay with the host while a session runs (R27). -/
theorem microStep_host {c : Config} {s t : State} (h : microStep c s = .next t) : t.host = s.host := by
  rcases microStep_cases h with ⟨-, rfl⟩ | ⟨-, -, rfl⟩ | ⟨-, -, rfl⟩ | ⟨-, p, -, rfl⟩ | ⟨-, p, -, rfl⟩ | ⟨-, p, -, -, rfl⟩ |
    ⟨-, rfl⟩ | ⟨-, p, b, -, -, -, rfl⟩ | ⟨-, p, -, -, rfl⟩ | ⟨-, rfl⟩ | ⟨-, rfl⟩ | ⟨-, -, rfl⟩ | ⟨-, -, rfl⟩ | ⟨e, -, rfl, -⟩ <;>
    simp

/-! ### ABORTED -/

section Aborted

variable {s : State} (hs : s.seq = .aborted)
include hs

theorem step_of_aborted_waiting {n : Nat} {rest : List HostInput} (h : s.host = .resetAfter (n + 1) :: rest) :
    step s = .next s.countdown := by
  rw [step_of_nobody (State.resetNow_eq_false_iff.2 (by simp [h])) (by rw [hs]; rfl), abortedTurn, h]

theorem step_of_aborted_command {w : CmdWord} {rest : List HostInput} (h : s.host = .command w :: rest) :
    step s = .fault .aborted := by
  rw [step_of_nobody (State.resetNow_eq_false_iff.2 (by simp [h])) (by rw [hs]; rfl), abortedTurn, h]

theorem step_of_aborted_nil (h : s.host = []) : step s = .fault .aborted := by
  rw [step_of_nobody (State.resetNow_eq_false_iff.2 (by simp [h])) (by rw [hs]; rfl), abortedTurn, h]

end Aborted

/-- Settles O46: the outcome in ABORTED is decided by the first of the host's inputs. -/
theorem onlyResetLeavesAborted : Obligations.OnlyResetLeavesAborted := by
  intro s t hs h
  rcases hhost : s.host with _ | ⟨⟨w⟩ | ⟨_ | n⟩, rest⟩
  · cases (step_of_aborted_nil hs hhost).symm.trans h
  · cases (step_of_aborted_command hs hhost).symm.trans h
  · cases (step_of_reset_due hhost).symm.trans h
    exact .inr ⟨rest, rfl, rfl⟩
  · cases (step_of_aborted_waiting hs hhost).symm.trans h
    exact .inl ⟨s.countdown_eq, n, rest, rfl, State.countdown_host_of_waiting hhost⟩

/-- Settles O42: with commands only no reset is due, so the agent of the position takes the step. -/
theorem oneAgentStepsAtATime : Obligations.OneAgentStepsAtATime := by
  intro s honly
  have hreset := resetNow_of_onlyCommands honly
  refine ⟨fun hagent => ?_, fun hready hhost => ?_, fun hs => ?_⟩
  · have hstep := step_of_sequencer hreset hagent
    rw [s.countdown_of_onlyCommands honly] at hstep
    exact ⟨hstep, fun t ht => microStep_host (hstep.symm.trans ht)⟩
  · rw [step_of_host hreset (s.ready_iff_agent.1 hready), hostTurn, hhost]
    exact congrArg Host.Outcome.next (s.countdown_of_onlyCommands honly)
  · rcases hhost : s.host with _ | ⟨⟨w⟩ | n, rest⟩
    · exact step_of_aborted_nil hs hhost
    · exact step_of_aborted_command hs hhost
    · rw [hhost] at honly
      simp [onlyCommands] at honly

/-! ### Commands -/

theorem runCommand_of_decoded {w : CmdWord} {i : Instr} (s : State) (hd : decode w = .ok i) : runCommand w s = exec i s := by
  rw [runCommand, hd]

/-- Settles O41: the presented word is taken, decoded and run. -/
theorem stepRunsTheDecodedCommand : Obligations.StepRunsTheDecodedCommand := fun s _ _ rest hr hh hd =>
  (step_of_presented_command hr hh).trans (runCommand_of_decoded (s.withHost rest) hd)

/-- Settles O44: the pads are the registers, and `ready` is read off the agent of SEQ. -/
theorem outputsShowTheState : Obligations.OutputsShowTheState := fun s => ⟨s.padOut_eq, s.padOe_eq, s.ready_iff⟩

theorem exec_completes {s : State} (hr : s.ready = true) (i : Instr) : ∃ t, exec i s = .next t := by
  obtain ⟨t, hexec, -⟩ := exec_eq_whenReady i s
  exact ⟨t, hexec.trans (whenReady_of_ready hr)⟩

theorem exec_of_not_ready {s : State} (hr : s.ready = false) (i : Instr) : exec i s = .fault .notReady := by
  obtain ⟨t, hexec, -⟩ := exec_eq_whenReady i s
  rw [hexec, whenReady, hr]
  rfl

/-- Settles O22: every command is a step of the block when it is ready, which is at IDLE and DONE. -/
theorem commandsCompleteExactlyWhileReady : Obligations.CommandsCompleteExactlyWhileReady := by
  refine fun i s => ⟨fun hs => exec_completes (s.ready_iff.2 hs) i, fun hidle hdone => exec_of_not_ready ?_ i⟩
  rw [← Bool.not_eq_true, s.ready_iff]
  exact not_or.2 ⟨hidle, hdone⟩

end Sys2Proof.Machine
end

section
/-! The invariant (10_state.md sections 2 and 3): what it asks in each phase of the block, that the reset state and every step meet
it, and that the machine stops nowhere but at an abort. -/

namespace Sys2Proof.Machine

/-! ### The invariant in each phase -/

/-- BUF is whole bytes within BUF_CAP (R25). -/
structure BufOk (c : Config) (buf : List Bit) : Prop where
  whole : buf.length % 8 = 0
  fits : overCap c.bufCap buf.length = false

theorem Inv.bufOk {c : Config} {s : State} (h : Inv c s) : BufOk c s.buf := ⟨h.bufWhole, h.bufFits⟩

theorem bufOk_nil (c : Config) : BufOk c [] where
  whole := rfl
  fits := by cases h : c.bufCap <;> simp [overCap]

/-- What the invariant asks at IDLE and DONE. -/
theorem Inv.of_ready {c : Config} {s : State} (hs : s.ready = true) (hbuf : BufOk c s.buf) (hidx : s.idx = 0)
    (hsettle : s.settleCnt = 0) (habort : s.abortCode = .ok) : Inv c s := by
  obtain ⟨hwhole, hfits⟩ := hbuf
  rcases s.ready_iff.1 hs with hseq | hseq <;> constructor <;> simp [*, SeqPos.inBits, SeqPos.fsm, SeqPos.agent]

/-- What the invariant asks at ABORTED. -/
theorem Inv.of_aborted {c : Config} {s : State} (hs : s.seq = .aborted) (hbuf : BufOk c s.buf) (hidx : s.idx = 0)
    (hsettle : s.settleCnt = 0) (habort : s.abortCode = .invalidPin) (hresp : s.resp = some (respWord .invalidPin 0#16)) :
    Inv c s := by
  obtain ⟨hwhole, hfits⟩ := hbuf
  constructor <;> simp [*, SeqPos.inBits, SeqPos.fsm, SeqPos.agent]

/-- What the invariant asks at I_REPORT. -/
theorem Inv.of_iReport {c : Config} {s : State} (hs : s.seq = .iReport) (hbuf : BufOk c s.buf) (hidx : s.idx = 0)
    (hsettle : s.settleCnt = c.settleTicks) (habort : s.abortCode = .ok) (hresp : s.resp = none) : Inv c s := by
  obtain ⟨hwhole, hfits⟩ := hbuf
  constructor <;> simp [*, SeqPos.inBits, SeqPos.fsm]

/-- What the invariant asks at I_SETTLE. -/
theorem Inv.of_iSettle {c : Config} {s : State} (hs : s.seq = .iSettle) (hbuf : BufOk c s.buf) (hidx : s.idx = 0)
    (hsettle : s.settleCnt ≤ c.settleTicks) (habort : s.abortCode = .ok) (hresp : s.resp = none) : Inv c s := by
  obtain ⟨hwhole, hfits⟩ := hbuf
  constructor <;> simp [*, SeqPos.inBits, SeqPos.fsm]

/-- What the invariant asks at I_CFG_DATA and I_CFG_CLOCK. -/
theorem Inv.of_iCfg {c : Config} {s : State} (hs : s.seq = .iCfgData ∨ s.seq = .iCfgClock ∧ s.outputs c.dataPin = true)
    (hbuf : BufOk c s.buf) (hidx : s.idx = 0) (hsettle : s.settleCnt = 0) (habort : s.abortCode = .ok)
    (hresp : s.resp = none) : Inv c s := by
  obtain ⟨hwhole, hfits⟩ := hbuf
  rcases hs with hseq | ⟨hseq, hout⟩ <;> constructor <;> simp [*, SeqPos.inBits, SeqPos.fsm]

/-- What the invariant asks of the fields that no `A_*` and no `T_*` position changes. -/
structure BitsReady (c : Config) (s : State) : Prop where
  bufOk : BufOk c s.buf
  line : s.outputs c.dataPin = true
  clock : s.outputs c.clockPin = true
  settle : s.settleCnt = 0
  abort : s.abortCode = .ok
  resp : s.resp = none

section Bits

variable {c : Config} {s t : State}

theorem BitsReady.of_eq (h : BitsReady c s) (hbuf : t.buf = s.buf) (hdir : t.dir = s.dir)
    (hsettle : t.settleCnt = s.settleCnt) (habort : t.abortCode = s.abortCode) (hresp : t.resp = s.resp) :
    BitsReady c t where
  bufOk := by rw [hbuf]; exact h.bufOk
  line := by rw [s.outputs_congr hdir]; exact h.line
  clock := by rw [s.outputs_congr hdir]; exact h.clock
  settle := hsettle.trans h.settle
  abort := habort.trans h.abort
  resp := hresp.trans h.resp

theorem SeqPos.ne_of_inBits {p q : SeqPos} (hp : p.inBits = true) (hq : q.inBits = false) : p ≠ q := fun h =>
  nomatch (h ▸ hp).symm.trans hq

theorem SeqPos.agent_of_inBits {p : SeqPos} (h : p.inBits = true) : p.agent = .sequencer := by
  revert h
  cases p <;> decide

/-- What the invariant asks at the `A_*` and `T_*` positions. -/
theorem BitsReady.inv (h : BitsReady c s) (hs : s.seq.inBits = true) (hidx : s.idx < s.buf.length)
    (hack : s.seq.fsm = .acknowledging → s.idx % 8 = 0) : Inv c s where
  bufWhole := h.bufOk.whole
  bufFits := h.bufOk.fits
  idxAtRest hout := nomatch hs.symm.trans hout
  idxInBuf _ := hidx
  ackAtByte := hack
  dataIsOutput _ := h.line
  clockIsOutput _ := h.clock
  settleLoaded hseq := absurd hseq (SeqPos.ne_of_inBits hs rfl)
  settleBounded := by rw [h.settle]; exact Nat.zero_le _
  settleUsed _ _ := h.settle
  abortCodeClear _ := h.abort
  abortLatched hseq := absurd hseq (SeqPos.ne_of_inBits hs rfl)
  sendPending _ := h.resp

theorem Inv.bitsReady (h : Inv c s) (hs : s.seq.inBits = true) : BitsReady c s where
  bufOk := h.bufOk
  line := h.dataIsOutput (.inr hs)
  clock := h.clockIsOutput hs
  settle := h.settleUsed (SeqPos.ne_of_inBits hs rfl) (SeqPos.ne_of_inBits hs rfl)
  abort := h.abortCodeClear (SeqPos.ne_of_inBits hs rfl)
  resp := h.sendPending (SeqPos.agent_of_inBits hs)

/-- A step from an `A_*` or `T_*` position to another one, at the same bit, keeps the invariant. -/
theorem Inv.of_same_bit (h : Inv c s) (hs : s.seq.inBits = true) (ht : t.seq.inBits = true)
    (hack : t.seq.fsm = .acknowledging → s.seq.fsm = .acknowledging) (hidx : t.idx = s.idx) (hbuf : t.buf = s.buf)
    (hdir : t.dir = s.dir) (hsettle : t.settleCnt = s.settleCnt) (habort : t.abortCode = s.abortCode)
    (hresp : t.resp = s.resp) : Inv c t := by
  refine ((h.bitsReady hs).of_eq hbuf hdir hsettle habort hresp).inv ht ?_ fun hseq => ?_
  · rw [hidx, hbuf]
    exact h.idxInBuf hs
  · rw [hidx]
    exact h.ackAtByte (hack hseq)

/-- `dispatch` goes to a bit inside the buffer, to an acknowledgment at a multiple of 8, or ends the session (R152). -/
theorem BitsReady.dispatch (h : BitsReady c s) (i : Nat) : Inv c (s.dispatch i) := by
  rcases s.dispatch_cases i with ⟨-, heq⟩ | ⟨hi, hbyte, heq⟩ | ⟨hi, -, heq⟩ <;> rw [heq]
  · exact .of_ready (State.ready_iff _ |>.2 (.inr rfl)) (bufOk_nil c) rfl h.settle h.abort
  · exact (h.of_eq (t := { s with idx := i, seq := .aToggle }) rfl rfl rfl rfl rfl).inv rfl hi fun _ => hbyte
  · exact (h.of_eq (t := { s with idx := i, seq := .tData }) rfl rfl rfl rfl rfl).inv rfl hi nofun

/-- Where a session stands, the invariant leaves nothing to abort on but a pin out of range (R168). -/
theorem Inv.not_output_false (h : Inv c s) (hs : s.seq.inBits = true) :
    ¬ (s.outputs c.dataPin = false ∨ s.outputs c.clockPin = false) := by
  simp [(h.bitsReady hs).line, (h.bitsReady hs).clock]

end Bits

/-! ### Every step keeps it -/

/-- The invariant says nothing of the host's inputs. -/
theorem Inv.withHost {c : Config} {s : State} (h : Inv c s) (host : List HostInput) : Inv c (s.withHost host) := by
  cases h
  constructor <;> assumption

theorem Inv.countdown {c : Config} {s : State} (h : Inv c s) : Inv c s.countdown := by
  rw [s.countdown_eq]
  exact h.withHost _

/-- Settles O47: at reset the block is ready, with an empty buffer. -/
theorem resetHasTheInvariant : Obligations.ResetHasTheInvariant :=
  .of_ready rfl (bufOk_nil _) rfl rfl rfl

section Keeps

variable {c : Config} {s t : State}

theorem Inv.abort (h : Inv c s) (hs : s.seq = .iCfgData ∨ s.seq = .iCfgClock) : Inv c (s.abort .invalidPin) := by
  rcases hs with hs | hs <;>
    exact .of_aborted rfl h.bufOk (h.idxAtRest (by rw [hs]; rfl)) (h.settleUsed (by simp [hs]) (by simp [hs])) rfl rfl

/-- Every micro-step keeps the invariant, for every configuration (R25, R29, R30, R168). -/
theorem Inv.microStep (h : Inv c s) (hstep : microStep c s = .next t) : Inv c t := by
  have hrun : s.seq.agent = .sequencer := by
    by_contra hstop
    cases (microStep_of_not_sequencer c hstop).symm.trans hstep
  have hresp : s.resp = none := h.sendPending hrun
  have habort : s.abortCode = .ok := h.abortCodeClear fun hseq => by
    rw [hseq] at hrun
    cases hrun
  rcases microStep_cases hstep with ⟨hs, rfl⟩ | ⟨hs, -, rfl⟩ | ⟨hs, hzero, rfl⟩ | ⟨hs, p, hp, rfl⟩ | ⟨hs, p, hp, rfl⟩ |
    ⟨hs, p, -, -, rfl⟩ | ⟨hs, rfl⟩ | ⟨hs, p, b, -, -, -, rfl⟩ | ⟨hs, p, -, -, rfl⟩ | ⟨hs, rfl⟩ | ⟨hs, rfl⟩ | ⟨hs, -, rfl⟩ |
    ⟨hs, -, rfl⟩ | ⟨e, -, -, hs⟩
  · exact .of_iSettle rfl h.bufOk (h.idxAtRest (by rw [hs]; rfl)) h.settleBounded habort hresp
  · exact .of_iSettle hs h.bufOk (h.idxAtRest (by rw [hs]; rfl)) ((Nat.sub_le _ _).trans h.settleBounded) habort hresp
  · exact .of_iCfg (.inl rfl) h.bufOk (h.idxAtRest (by rw [hs]; rfl)) hzero habort hresp
  · exact .of_iCfg (.inr ⟨rfl, s.outputs_putBit_self hp⟩) h.bufOk (h.idxAtRest (by rw [hs]; rfl))
      (h.settleUsed (by simp [hs]) (by simp [hs])) habort hresp
  · have hbits : BitsReady c (s.putBit .dir p 1#1) :=
      ⟨h.bufOk, s.outputs_putBit_dir (h.dataIsOutput (.inl hs)) p, s.outputs_putBit_self hp,
        h.settleUsed (by simp [hs]) (by simp [hs]), habort, hresp⟩
    exact hbits.dispatch 0
  · exact h.of_same_bit (by rw [hs]; rfl) rfl (fun _ => by rw [hs]; rfl) rfl rfl rfl rfl rfl rfl
  · exact h.of_same_bit (by rw [hs]; rfl) rfl nofun rfl rfl rfl rfl rfl rfl
  · exact h.of_same_bit (by rw [hs]; rfl) rfl nofun rfl rfl rfl rfl rfl rfl
  · exact h.of_same_bit (by rw [hs]; rfl) rfl nofun rfl rfl rfl rfl rfl rfl
  · exact h.of_same_bit (by rw [hs]; rfl) rfl nofun rfl rfl rfl rfl rfl rfl
  · have hbits : BitsReady c s.tick := (h.bitsReady (by rw [hs]; rfl)).of_eq rfl rfl rfl rfl rfl
    exact hbits.dispatch (s.idx + 1)
  · exact h.abort (.inl hs)
  · exact h.abort (.inr hs)
  · exfalso
    rcases hs with ⟨hs, hout⟩ | ⟨hs, hout⟩ | ⟨hs, hout⟩
    · exact h.not_output_false (by rw [hs]; rfl) (.inr hout)
    · exact h.not_output_false (by rw [hs]; rfl) (.inl hout)
    · exact h.not_output_false (by rw [hs]; rfl) (.inr hout)

theorem byteBits_length (b : Byte) : (byteBits b).length = 8 := rfl

/-- Every command keeps the invariant of the block (R25, R150). -/
theorem Inv.exec {i : Instr} (h : Inv Config.block s) (hexec : exec i s = .next t) : Inv Config.block t := by
  obtain ⟨hready, hend⟩ := exec_cases hexec
  have hrest : s.idx = 0 ∧ s.settleCnt = 0 ∧ s.abortCode = .ok := by
    rcases s.ready_iff.1 hready with hs | hs <;>
      exact ⟨h.idxAtRest (by rw [hs]; rfl), h.settleUsed (by simp [hs]) (by simp [hs]), h.abortCodeClear (by simp [hs])⟩
  obtain ⟨hidx, hsettle, habort⟩ := hrest
  rcases hend with ⟨st, d, rfl⟩ | ⟨r, p, v, rfl, -, -⟩ | ⟨b, -, hfits, rfl⟩ | ⟨-, rfl⟩
  · exact .of_ready hready h.bufOk hidx hsettle habort
  · have hseq : ((s.putBit r p v).respond .ok 0#16).seq = s.seq := by simp
    exact .of_ready (by rw [State.ready, hseq]; exact hready) (by simpa using h.bufOk) (by simpa using hidx)
      (by simpa using hsettle) (by simpa using habort)
  · have hlen : (s.buf ++ byteBits b).length = s.buf.length + 8 := by rw [List.length_append, byteBits_length]
    have hbuf : BufOk Config.block (s.buf ++ byteBits b) :=
      ⟨by rw [hlen, Nat.add_mod_right]; exact h.bufWhole, by rw [hlen]; exact hfits⟩
    exact .of_ready hready hbuf hidx hsettle habort
  · exact .of_iReport rfl h.bufOk rfl rfl rfl rfl

/-- A reserved word that is answered keeps the invariant (R75). -/
theorem Inv.rejectCommand (h : Inv c s) (hready : s.ready = true) : Inv c (rejectCommand s) := by
  rcases s.ready_iff.1 hready with hs | hs <;>
    exact .of_ready hready h.bufOk (h.idxAtRest (by rw [hs]; rfl)) (h.settleUsed (by simp [hs]) (by simp [hs]))
      (h.abortCodeClear (by simp [hs]))

end Keeps

/-- Settles O48: one lemma for each way a step can go. -/
theorem everyStepKeepsTheInvariant : Obligations.EveryStepKeepsTheInvariant := by
  intro s t h hstep
  rcases step_cases hstep with ⟨rest, -, rfl⟩ | ⟨-, -, w, i, rest, -, -, hexec⟩ | ⟨-, hagent, w, e, rest, -, -, rfl⟩ |
    ⟨-, -, rfl, -⟩ | ⟨-, -, hmicro⟩
  · exact Inv.withHost resetHasTheInvariant rest
  · exact (h.withHost rest).exec hexec
  · exact (h.withHost rest).rejectCommand (s.ready_iff_agent.2 hagent)
  · exact h.countdown
  · exact h.countdown.microStep hmicro

/-! ### No other stop than an abort -/

/-- The host's turn always ends in a next state: the block is ready for whatever is presented (R27, R75). -/
theorem hostTurn_completes {s : State} (hready : s.ready = true) : ∃ t, hostTurn s = .next t := by
  unfold hostTurn
  split
  case h_1 w rest hhost =>
    cases hd : decode w with
    | ok i =>
      rw [runCommand_of_decoded _ hd]
      exact exec_completes (s := s.withHost rest) hready i
    | error e => exact ⟨_, runCommand_of_reserved _ hd⟩
  case h_2 => exact ⟨_, rfl⟩

/-- Settles O49: the host's turn completes, a micro-step does because IDX is in BUF, and ABORTED has no step. -/
theorem onlyAnAbortStopsTheMachine : Obligations.OnlyAnAbortStopsTheMachine := by
  intro s h
  by_cases hreset : s.resetNow = false
  case neg =>
    rw [State.resetNow_eq_false_iff, not_forall] at hreset
    obtain ⟨rest, hhost⟩ := hreset
    exact .inl ⟨_, step_of_reset_due (not_not.1 hhost)⟩
  cases hagent : s.seq.agent with
  | host =>
    rw [step_of_host hreset hagent]
    exact .inl (hostTurn_completes (s.ready_iff_agent.2 hagent))
  | sequencer =>
    rw [step_of_sequencer hreset hagent]
    refine .inl (microStep_completes _ (by rw [State.countdown_seq]; exact hagent) fun hseq => ?_)
    exact h.countdown.idxInBuf (by rw [hseq]; rfl)
  | nobody =>
    have hs := SeqPos.agent_eq_nobody_iff.1 hagent
    rcases hhost : s.host with _ | ⟨⟨w⟩ | ⟨_ | n⟩, rest⟩
    · exact .inr ⟨hs, (h.abortLatched hs).1, step_of_aborted_nil hs hhost⟩
    · exact .inr ⟨hs, (h.abortLatched hs).1, step_of_aborted_command hs hhost⟩
    · exact .inl ⟨_, step_of_reset_due hhost⟩
    · exact .inl ⟨_, step_of_aborted_waiting hs hhost⟩

end Sys2Proof.Machine
end

section
/-! Runs of the machine: one step after another, a reset that is to come (70_reset_and_hazards.md R230), the micro-steps of a session
as steps of the machine (43_serial_transmitter.md R165), and SENDBYTES from end to end (30_encoding.md R80). -/

namespace Sys2Proof.Machine

/-! ### Steps in a row -/

/-- `k` steps lead from `s` to `t`. -/
def Runs (k : Nat) (s t : State) : Prop := Host.Core.run core k s = .next t

section Runs

variable {k : Nat} {s t u : State}

theorem Runs.zero (s : State) : Runs 0 s s := rfl

theorem run_succ_of_step (h : step s = .next t) (k : Nat) : Host.Core.run core (k + 1) s = Host.Core.run core k t := by
  have hcore : core.step s = .next t := h
  simp only [Host.Core.run, hcore]

theorem Runs.step (h : step s = .next t) (ht : Runs k t u) : Runs (k + 1) s u := (run_succ_of_step h k).trans ht

end Runs

/-! ### A reset that is to come -/

/-- While a reset is to come every step counts towards it (log 3). -/
theorem step_host_of_waiting {s t : State} {n : Nat} {rest : List HostInput} (hhost : s.host = .resetAfter (n + 1) :: rest)
    (h : step s = .next t) : t.host = .resetAfter n :: rest := by
  rcases step_cases h with ⟨_, hdue, -⟩ | ⟨-, -, w, i, _, hcmd, -⟩ | ⟨-, -, w, e, _, hcmd, -⟩ | ⟨-, -, rfl, -⟩ | ⟨-, -, hmicro⟩
  · simp [hhost] at hdue
  · simp [hhost] at hcmd
  · simp [hhost] at hcmd
  · exact State.countdown_host_of_waiting hhost
  · rw [microStep_host hmicro]
    exact State.countdown_host_of_waiting hhost

/-- With a reset to come the machine does not stop: what would stop it is ABORTED, where it waits for the reset (R208). -/
theorem step_completes_of_waiting {s : State} (h : Inv Config.block s) {n : Nat} {rest : List HostInput}
    (hhost : s.host = .resetAfter (n + 1) :: rest) : ∃ t, step s = .next t := by
  rcases onlyAnAbortStopsTheMachine s h with hnext | ⟨hs, -, -⟩
  · exact hnext
  · exact ⟨_, step_of_aborted_waiting hs hhost⟩

/-- Settles O45: by induction on the steps that are left; each keeps the invariant and brings the reset nearer. -/
theorem resetArrivesFromEveryState : Obligations.ResetArrivesFromEveryState := by
  intro s n rest h hhost
  change Runs (n + 1) s { State.reset with host := rest }
  induction n generalizing s with
  | zero => exact .step (step_of_reset_due hhost) (Runs.zero _)
  | succ n ih =>
    obtain ⟨t, hstep⟩ := step_completes_of_waiting h hhost
    exact .step hstep (ih t (everyStepKeepsTheInvariant s t h hstep) (step_host_of_waiting hhost hstep))

/-! ### A session that the host issues -/

/-- A micro-step is a step of the machine while no reset is to come (R27). -/
theorem step_eq_microStep {s t : State} (honly : onlyCommands s.host = true) (h : microStep Config.block s = .next t) :
    step s = .next t := by
  have hagent : s.seq.agent = .sequencer := by
    by_contra hstop
    cases (microStep_of_not_sequencer _ hstop).symm.trans h
  exact ((oneAgentStepsAtATime s honly).1 hagent).1.trans h

/-- Micro-steps are steps of the machine while no reset is to come (R27). -/
theorem Runs.of_microSteps {k : Nat} {s t : State} (honly : onlyCommands s.host = true)
    (h : microSteps Config.block k s = .next t) : Runs k s t := by
  induction k generalizing s with
  | zero => exact h
  | succ k ih =>
    rw [microSteps] at h
    cases hstep : microStep Config.block s with
    | next u =>
      rw [hstep] at h
      exact .step (step_eq_microStep honly hstep) (ih (by rw [microStep_host hstep]; exact honly) h)
    | fault f =>
      rw [hstep] at h
      cases h
    | refused r =>
      rw [hstep] at h
      cases h

theorem exec_send_of_ready {s : State} (hr : s.ready = true) : exec .send s = .next (s.startSession Config.block) :=
  whenReady_of_ready hr

/-- The word 0xA000 is SEND (R73). -/
theorem encode_send : encode .send = 0xA000#16 := rfl

theorem decode_send : decode 0xA000#16 = .ok .send := decode_of_encode_eq rfl encode_send

/-- The step of a ready block that is given the word of a command. -/
theorem step_of_presented_encode {s : State} {i : Instr} {rest : List HostInput} (hr : s.ready = true)
    (hh : s.host = .command (encode i) :: rest) (hwf : i.wellFormed = true) : step s = exec i (s.withHost rest) :=
  (step_of_presented_command hr hh).trans (runCommand_of_decoded _ (decodeOfEncodeIsTheCommand i hwf))

/-- SEND given to a ready block runs to the end of the session of R165. -/
theorem exists_runs_session {s : State} {rest : List HostInput} (hr : s.ready = true)
    (hh : s.host = .command (encode .send) :: rest) (honly : onlyCommands rest = true) :
    ∃ k, Runs k s (session Config.block (s.withHost rest)) := by
  obtain ⟨k, -, hrun, -⟩ := microStepsPerformTheLoop Config.block (s.withHost rest)
  have hstep : step s = .next ((s.withHost rest).startSession Config.block) :=
    (step_of_presented_encode hr hh rfl).trans (exec_send_of_ready (s := s.withHost rest) hr)
  exact ⟨k + 1, .step hstep (.of_microSteps honly hrun)⟩

/-- Settles O56: one step starts the session, and the micro-steps perform the loop. -/
theorem issuedSendRunsTheWholeSession : Obligations.IssuedSendRunsTheWholeSession :=
  fun _ _ hr hh honly => exists_runs_session hr hh honly

/-! ### SENDBYTES -/

@[simp] theorem encodeByte_host (cap : Option Nat) (b : Byte) (s : State) : (encodeByte cap b s).host = s.host := by
  unfold encodeByte
  split <;> rfl

@[simp] theorem encodeByte_ready (cap : Option Nat) (b : Byte) (s : State) : (encodeByte cap b s).ready = s.ready := by
  unfold encodeByte
  split <;> rfl

theorem encodeByte_withHost (cap : Option Nat) (b : Byte) (s : State) (host : List HostInput) :
    encodeByte cap b (s.withHost host) = (encodeByte cap b s).withHost host := by
  unfold encodeByte
  rw [State.withHost_buf]
  split <;> rfl

/-- ENCB given to a ready block encodes its byte, whether it fits or not (R140, R141). -/
theorem step_of_presented_encb {s : State} {b : Byte} {rest : List HostInput} (hr : s.ready = true)
    (hh : s.host = .command (encode (.encb b)) :: rest) :
    step s = .next (encodeByte Config.block.bufCap b (s.withHost rest)) :=
  (step_of_presented_encode hr hh rfl).trans (exec_encb_of_ready (s := s.withHost rest) hr b)

/-- SENDBYTES is its first ENCB and then SENDBYTES of the other bytes (R80). -/
theorem presented_sendbytes_cons (b : Byte) (bs : List Byte) : presented (expand (.sendbytes (b :: bs))) =
    .command (encode (.encb b)) :: presented (expand (.sendbytes bs)) := rfl

/-- Settles O57: by induction on the bytes; each ENCB is a step, and SEND runs the session. -/
theorem sendbytesRunsEndToEnd : Obligations.SendbytesRunsEndToEnd := by
  intro s bytes hr hh
  change ∃ k, Runs k s (session Config.block (encodeBytes Config.block.bufCap bytes (s.withHost [])))
  induction bytes generalizing s with
  | nil => exact exists_runs_session hr hh rfl
  | cons b bs ih =>
    rw [presented_sendbytes_cons] at hh
    have hstep := step_of_presented_encb hr hh
    obtain ⟨k, hrun⟩ := ih (encodeByte Config.block.bufCap b (s.withHost (presented (expand (.sendbytes bs)))))
      ((encodeByte_ready _ _ _).trans hr) (encodeByte_host _ _ _)
    refine ⟨k + 1, .step hstep ?_⟩
    rw [← encodeByte_withHost] at hrun
    exact hrun

end Sys2Proof.Machine
end

section
/-! Decoding read backwards (30_encoding.md R73, R74): a word is its three fields, a legal word is the word of the command it decodes
to, the rows of the opcode map are those of the commands, and the legal words are counted field by field. -/

namespace Sys2Proof

/-! ### A word is its fields -/

theorem pinField_lt (w : CmdWord) : pinField w < 16 := by
  rw [pinField_eq_div_mod]
  exact Nat.mod_lt _ (by decide)

/-- A word is put together again from its fields (R70, R73). -/
theorem commandWord_fields (w : CmdWord) : commandWord (opField w) (pinField w) (valField w).toNat = w := by
  refine BitVec.eq_of_toNat_eq ?_
  have hw := w.isLt
  rw [commandWord, BitVec.toNat_ofNat, opField_eq_div, pinField_eq_div_mod, valField_toNat_eq_mod]
  omega

/-- The word of a command is that of its row's fields (R73). -/
theorem encode_eq_commandWord (i : Instr) :
    encode i = commandWord (Laws.rowFields i).1 (Laws.rowFields i).2.1 (Laws.rowFields i).2.2 := by
  cases i <;> rfl

/-- Fields that fit their places make a well-formed command (R79). -/
theorem wellFormed_of_rowFields_lt {i : Instr} (hpin : (Laws.rowFields i).2.1 < 16) (hval : (Laws.rowFields i).2.2 < 256) :
    i.wellFormed = true := by
  cases i with
  | rdbitData pin | rdbitDir pin | rdpin pin | tglpin pin => exact pinEncodable_iff.2 hpin
  | wrbitData pin val | wrbitDir pin val | cfgdir pin val | wrpin pin val =>
    exact Bool.and_eq_true_iff.2 ⟨pinEncodable_iff.2 hpin, valEncodable_iff.2 hval⟩
  | encb b | send | render => rfl

/-! ### The fields of a legal word -/

theorem formatP_eq_ok {w : CmdWord} {mk : Nat → Instr} {i : Instr} (h : formatP w mk = .ok i) :
    (valField w).toNat = 0 ∧ mk (pinField w) = i := by
  unfold formatP at h
  split at h
  case isTrue hv =>
    cases h
    exact ⟨congrArg BitVec.toNat hv, rfl⟩
  case isFalse => cases h

theorem formatPV_eq_ok {w : CmdWord} {mk : Nat → Nat → Instr} {i : Instr} (h : formatPV w mk = .ok i) :
    mk (pinField w) (valField w).toNat = i := by
  cases h
  rfl

theorem formatV_eq_ok {w : CmdWord} {mk : Byte → Instr} {i : Instr} (h : formatV w mk = .ok i) :
    pinField w = 0 ∧ mk (valField w) = i := by
  unfold formatV at h
  split at h
  case isTrue hp =>
    cases h
    exact ⟨hp, rfl⟩
  case isFalse => cases h

theorem formatZ_eq_ok {w : CmdWord} {i j : Instr} (h : formatZ w j = .ok i) :
    pinField w = 0 ∧ (valField w).toNat = 0 ∧ j = i := by
  unfold formatZ at h
  split at h
  case isTrue hz =>
    obtain ⟨hp, hv⟩ := hz
    cases h
    exact ⟨hp, congrArg BitVec.toNat hv, rfl⟩
  case isFalse => cases h

/-- A word that decodes to a command has the fields of that command's row: the converse of `decode_of_rowFields`. -/
theorem rowFields_of_decode {w : CmdWord} {i : Instr} (h : decode w = .ok i) :
    (opField w, pinField w, (valField w).toNat) = Laws.rowFields i := by
  unfold decode at h
  split at h
  case h_1 hop | h_2 hop | h_7 hop | h_8 hop =>
    obtain ⟨hval, rfl⟩ := formatP_eq_ok h
    rw [hop, hval]
    rfl
  case h_3 hop | h_4 hop | h_5 hop | h_6 hop =>
    obtain rfl := formatPV_eq_ok h
    rw [hop]
    rfl
  case h_9 hop =>
    obtain ⟨hpin, rfl⟩ := formatV_eq_ok h
    rw [hop, hpin]
    rfl
  case h_10 hop | h_11 hop =>
    obtain ⟨hpin, hval, rfl⟩ := formatZ_eq_ok h
    rw [hop, hpin, hval]
    rfl
  case h_12 => cases h

/-- Settles O2: a legal word has the fields of its command's row, and is the word made of them. -/
theorem encodeOfDecodeIsTheWord : Obligations.EncodeOfDecodeIsTheWord := by
  intro w i h
  have hfields := rowFields_of_decode h
  refine ⟨wellFormed_of_rowFields_lt ?_ ?_, ?_⟩
  · rw [← hfields]
    exact pinField_lt w
  · rw [← hfields]
    exact (valField w).isLt
  · rw [encode_eq_commandWord, ← hfields, commandWord_fields]

/-- Settles O6: each word has the fields of its command's row. -/
theorem wordsOfTheSpecDecode : Obligations.WordsOfTheSpecDecode :=
  ⟨decode_of_rowFields rfl, decode_of_rowFields rfl, decode_of_rowFields rfl, decode_of_rowFields rfl,
    decode_of_rowFields rfl, decode_of_rowFields rfl, decode_of_rowFields rfl, decode_of_rowFields rfl,
    decode_of_rowFields rfl, decode_of_rowFields rfl, decode_of_rowFields rfl⟩

/-! ### SEND -/

/-- The words 0xA001 to 0xAFFF are reserved (R75). -/
theorem decode_send_operandsNotZero {n : Nat} (hpos : 0 < n) (hn : n < 4096) :
    decode (BitVec.ofNat 16 (0xA000 + n)) = .error .operandsNotZero := by
  have hword : (BitVec.ofNat 16 (0xA000 + n)).toNat = 0xA000 + n := Nat.mod_eq_of_lt (by omega)
  refine decode_operandsNotZero (.inl ?_) ?_
  · rw [opField_eq_div, hword]
    omega
  · rw [hword]
    omega

/-- Settles O20: the word by format Z; a ready block starts the session. -/
theorem sendStartsASession : Obligations.SendStartsASession :=
  ⟨Machine.encode_send, Machine.decode_send, fun _ hpos hn => decode_send_operandsNotZero hpos hn,
    fun s hs => Machine.exec_send_of_ready (s.ready_iff.2 hs)⟩

/-! ### The opcode map -/

/-- A word as its three fields side by side (R70). -/
theorem word_eq_append (w : CmdWord) : w = w.extractLsb' 12 4 ++ w.extractLsb' 8 4 ++ valField w := by
  rw [valField, BitVec.extractLsb'_append_extractLsb'_eq_extractLsb' (start₁ := 8) (len₁ := 4) rfl,
    BitVec.extractLsb'_append_extractLsb'_eq_extractLsb' (start₁ := 0) (len₁ := 8) rfl]
  exact BitVec.extractLsb'_eq_self.symm

/-- The mask of a row: OP, and each of PIN and VAL that must be zero (R71, R73). -/
def fieldMask : (pinUnused valUnused : Bool) → CmdWord
  | false, false => 0xF000#16
  | false, true => 0xF0FF#16
  | true, false => 0xFF00#16
  | true, true => 0xFFFF#16

theorem fieldMask_eq_append : ∀ pinUnused valUnused : Bool, fieldMask pinUnused valUnused =
    15#4 ++ (bif pinUnused then 15#4 else 0#4) ++ (bif valUnused then 255#8 else 0#8) := by decide

theorem append_eq_append_iff {m n : Nat} {a c : BitVec m} {b d : BitVec n} : a ++ b = c ++ d ↔ a = c ∧ b = d := by
  refine ⟨fun h => ⟨?_, ?_⟩, fun ⟨ha, hb⟩ => by rw [ha, hb]⟩
  · rw [← BitVec.extractLsb'_append_eq_left (a := a) (b := b), h, BitVec.extractLsb'_append_eq_left]
  · rw [← BitVec.extractLsb'_append_eq_right (a := a) (b := b), h, BitVec.extractLsb'_append_eq_right]

/-- `w & mask = match` asks for the opcode, and for zero in each field the mask covers (R71). -/
theorem and_fieldMask_eq_iff (w : CmdWord) {op : Nat} (hop : op < 16) (pinUnused valUnused : Bool) :
    w &&& fieldMask pinUnused valUnused = commandWord op 0 0 ↔
      opField w = op ∧ (pinUnused = true → pinField w = 0) ∧ (valUnused = true → (valField w).toNat = 0) := by
  have hmaskOp : w.extractLsb' 12 4 &&& 15#4 = w.extractLsb' 12 4 := BitVec.and_allOnes
  have hmaskPin : w.extractLsb' 8 4 &&& 15#4 = w.extractLsb' 8 4 := BitVec.and_allOnes
  have hmaskVal : valField w &&& 255#8 = valField w := BitVec.and_allOnes
  have hopWord : ((commandWord op 0 0).extractLsb' 12 4).toNat = op := opField_commandWord hop (by decide) (by decide)
  have hpinWord : ((commandWord op 0 0).extractLsb' 8 4).toNat = 0 := pinField_commandWord (by decide) (by decide)
  have hvalWord : (valField (commandWord op 0 0)).toNat = 0 := valField_commandWord (by decide)
  rw [word_eq_append (commandWord op 0 0)]
  conv_lhs => rw [word_eq_append w]
  rw [fieldMask_eq_append, BitVec.and_append, BitVec.and_append, append_eq_append_iff, append_eq_append_iff, hmaskOp,
    BitVec.toNat_eq, BitVec.toNat_eq, BitVec.toNat_eq, hopWord, hpinWord, hvalWord, and_assoc]
  refine and_congr Iff.rfl (and_congr ?_ ?_)
  · cases pinUnused <;> simp only [cond_true, cond_false, hmaskPin, BitVec.and_zero] <;> simp [pinField]
  · cases valUnused <;> simp only [cond_true, cond_false, hmaskVal, BitVec.and_zero] <;> simp

/-- Which of the fields PIN and VAL the format of a command leaves unused (R71). -/
def Instr.unused : Instr → Bool × Bool
  | .rdbitData _ | .rdbitDir _ | .rdpin _ | .tglpin _ => (false, true)
  | .wrbitData _ _ | .wrbitDir _ _ | .cfgdir _ _ | .wrpin _ _ => (false, false)
  | .encb _ => (true, false)
  | .send | .render => (true, true)

/-- The row of a command in the opcode map (R73). -/
def Instr.tableRow (i : Instr) : OpcodeRow :=
  ⟨i.mnemonic, fieldMask i.unused.1 i.unused.2, commandWord (Laws.rowFields i).1 0 0⟩

theorem and_tableRow_mask_iff (w : CmdWord) (i : Instr) : w &&& i.tableRow.mask = i.tableRow.pattern ↔
    opField w = (Laws.rowFields i).1 ∧ (i.unused.1 = true → pinField w = 0) ∧
      (i.unused.2 = true → (valField w).toNat = 0) := by
  have hop : (Laws.rowFields i).1 < 16 := by cases i <;> simp [Laws.rowFields]
  exact and_fieldMask_eq_iff w hop _ _

/-- For each row of the opcode map the command that a word of that row stands for (R73). -/
def rowCommands (w : CmdWord) : List Instr :=
  [.rdbitData (pinField w), .rdbitDir (pinField w), .wrbitData (pinField w) (valField w).toNat,
    .wrbitDir (pinField w) (valField w).toNat, .cfgdir (pinField w) (valField w).toNat,
    .wrpin (pinField w) (valField w).toNat, .rdpin (pinField w), .tglpin (pinField w), .encb (valField w), .send, .render]

/-- The patterns of the opcode map have zero in both operand fields (R73). -/
theorem commandWord_patterns :
    commandWord 0x1 0 0 = 0x1000#16 ∧ commandWord 0x2 0 0 = 0x2000#16 ∧ commandWord 0x3 0 0 = 0x3000#16 ∧
    commandWord 0x4 0 0 = 0x4000#16 ∧ commandWord 0x5 0 0 = 0x5000#16 ∧ commandWord 0x6 0 0 = 0x6000#16 ∧
    commandWord 0x7 0 0 = 0x7000#16 ∧ commandWord 0x8 0 0 = 0x8000#16 ∧ commandWord 0x9 0 0 = 0x9000#16 ∧
    commandWord 0xA 0 0 = 0xA000#16 ∧ commandWord 0xB 0 0 = 0xB000#16 := by decide

theorem opcodeTable_eq_map_tableRow (w : CmdWord) : opcodeTable = (rowCommands w).map Instr.tableRow := by
  obtain ⟨h1, h2, h3, h4, h5, h6, h7, h8, h9, h10, h11⟩ := commandWord_patterns
  simp only [opcodeTable, rowCommands, List.map_cons, List.map_nil, Instr.tableRow, Instr.unused, Instr.mnemonic,
    Laws.rowFields, fieldMask, h1, h2, h3, h4, h5, h6, h7, h8, h9, h10, h11]

/-- A word that matches a row decodes to the command it stands for there. -/
theorem decode_of_and_mask_eq {w : CmdWord} {i : Instr} (hi : i ∈ rowCommands w)
    (h : w &&& i.tableRow.mask = i.tableRow.pattern) : decode w = .ok i := by
  obtain ⟨hop, hpin, hval⟩ := (and_tableRow_mask_iff w i).1 h
  refine decode_of_rowFields ?_
  simp only [rowCommands, List.mem_cons, List.not_mem_nil, or_false] at hi
  rcases hi with rfl | rfl | rfl | rfl | rfl | rfl | rfl | rfl | rfl | rfl | rfl <;>
    simp_all [Laws.rowFields, Instr.unused]

/-- A word that decodes to a command matches the command's row. -/
theorem and_mask_eq_of_decode {w : CmdWord} {i : Instr} (h : decode w = .ok i) :
    w &&& i.tableRow.mask = i.tableRow.pattern := by
  have hfields := rowFields_of_decode h
  rw [and_tableRow_mask_iff, ← hfields]
  refine ⟨rfl, ?_⟩
  cases i <;> simp_all [Laws.rowFields, Instr.unused]

theorem tableRow_mem (i : Instr) : i.tableRow ∈ opcodeTable := by
  rw [opcodeTable_eq_map_tableRow 0]
  cases i <;> simp [rowCommands, Instr.tableRow, Instr.unused, Instr.mnemonic, Laws.rowFields]

/-- A row of the opcode map is known by its mnemonic (R73). -/
theorem row_eq_of_mnemonic_eq : ∀ a ∈ opcodeTable, ∀ b ∈ opcodeTable, a.mnemonic = b.mnemonic → a = b := by decide

/-- A word matches a row exactly when it decodes to a command of that row (R74). -/
theorem and_mask_eq_iff {w : CmdWord} {row : OpcodeRow} (hrow : row ∈ opcodeTable) :
    w &&& row.mask = row.pattern ↔ ∃ i, decode w = .ok i ∧ i.tableRow = row := by
  constructor
  · intro h
    rw [opcodeTable_eq_map_tableRow w, List.mem_map] at hrow
    obtain ⟨i, hi, rfl⟩ := hrow
    exact ⟨i, decode_of_and_mask_eq hi h, rfl⟩
  · rintro ⟨i, hi, rfl⟩
    exact and_mask_eq_of_decode hi

/-- Settles O3: a word matches the row of the command it decodes to, and there is one such command. -/
theorem decodeFollowsTheOpcodeMap : Obligations.DecodeFollowsTheOpcodeMap := by
  refine ⟨fun w row hrow => ?_, fun w a b ha hb hwa hwb => ?_⟩
  · rw [and_mask_eq_iff hrow]
    refine exists_congr fun i => and_congr_right fun _ => ⟨fun h => congrArg OpcodeRow.mnemonic h, fun h => ?_⟩
    exact row_eq_of_mnemonic_eq _ (tableRow_mem i) _ hrow h
  · obtain ⟨i, hi, rfl⟩ := (and_mask_eq_iff ha).1 hwa
    obtain ⟨j, hj, rfl⟩ := (and_mask_eq_iff hb).1 hwb
    cases hi.symm.trans hj
    rfl

/-! ### The number of legal words -/

/-- Opcode and PIN of a legal word (R75): an assigned opcode, and PIN zero where the format leaves it unused. -/
def fieldsLegal (op pin : Nat) : Bool := decide (1 ≤ op) && decide (op ≤ 11) && (decide (op < 9) || decide (pin = 0))

/-- The opcodes of the formats that leave VAL unused, P and Z (R71, R73). -/
def valUnused (op : Nat) : Bool := op ∈ [1, 2, 7, 8, 10, 11]

theorem decode_legal_iff (w : CmdWord) : (decode w).toOption.isSome = true ↔
    fieldsLegal (opField w) (pinField w) = true ∧ (valUnused (opField w) = true → (valField w).toNat = 0) := by
  have hreserved : (decode w).toOption.isSome = true ↔ ¬ ∃ e, decode w = .error e := by
    cases decode w <;> simp [Except.toOption]
  rw [hreserved, decode_reserved_iff_fields]
  simp only [fieldsLegal, valUnused, Bool.and_eq_true, Bool.or_eq_true, decide_eq_true_eq, List.mem_cons,
    List.not_mem_nil, or_false]
  omega

/-- Counting by a leading and a trailing digit. -/
theorem count_mul (p : Nat → Prop) [DecidablePred p] (a b : Nat) :
    Nat.count p (a * b) = ∑ i ∈ Finset.range a, Nat.count (fun j => p (i * b + j)) b := by
  induction a with
  | zero => rw [Nat.zero_mul, Nat.count_zero, Finset.sum_range_zero]
  | succ a ih => rw [Nat.succ_mul, Nat.count_add, ih, Finset.sum_range_succ]

/-- The legal values of VAL for an opcode and a PIN. -/
def valCount (op pin : Nat) : Nat := bif fieldsLegal op pin then (bif valUnused op then 1 else 256) else 0

theorem count_eq_zero_lt {n : Nat} (hn : 0 < n) : Nat.count (· = 0) n = 1 := by
  obtain ⟨m, rfl⟩ := Nat.exists_eq_add_of_lt hn
  rw [Nat.count_succ', if_pos rfl]
  simp

theorem count_legal_vals (op pin : Nat) :
    Nat.count (fun val => fieldsLegal op pin = true ∧ (valUnused op = true → val = 0)) 256 = valCount op pin := by
  unfold valCount
  cases fieldsLegal op pin <;> cases valUnused op <;> simp [count_eq_zero_lt]

/-- The word of a number below 65536 has the digits of the number in its fields (R70). -/
theorem decode_ofNat_legal_iff {op pin val : Nat} (hop : op < 16) (hpin : pin < 16) (hval : val < 256) :
    (decode (BitVec.ofNat 16 (op * 4096 + (pin * 256 + val)))).toOption.isSome = true ↔
      fieldsLegal op pin = true ∧ (valUnused op = true → val = 0) := by
  have hword : BitVec.ofNat 16 (op * 4096 + (pin * 256 + val)) = commandWord op pin val := by
    rw [commandWord, Nat.add_assoc]
  rw [hword, decode_legal_iff, opField_commandWord hop hpin hval, pinField_commandWord hpin hval,
    valField_commandWord hval]

/-- Predicates that agree below `n` have the same count there. -/
theorem count_congr_lt {p q : Nat → Prop} [DecidablePred p] [DecidablePred q] {n : Nat} (h : ∀ k < n, p k ↔ q k) :
    Nat.count p n = Nat.count q n := by
  rw [Nat.count_eq_card_filter_range, Nat.count_eq_card_filter_range]
  exact congrArg Finset.card (Finset.filter_congr fun k hk => h k (Finset.mem_range.1 hk))

theorem length_filter_range (p : Nat → Bool) (n : Nat) :
    ((List.range n).filter p).length = Nat.count (fun k => p k = true) n := by
  simp [Nat.count, List.countP_eq_length_filter]

/-- Settles O5: the words counted by opcode, PIN and VAL; 256 sums are left, one for each opcode and PIN. -/
theorem legalWordsAreCounted : Obligations.LegalWordsAreCounted := by
  have hwords : 65536 = 16 * (16 * 256) := rfl
  have hsum : (∑ op ∈ Finset.range 16, ∑ pin ∈ Finset.range 16, valCount op pin) = 16706 := by decide
  rw [Obligations.LegalWordsAreCounted, length_filter_range, hwords, count_mul, ← hsum]
  refine Finset.sum_congr rfl fun op hop => ?_
  rw [count_mul]
  refine Finset.sum_congr rfl fun pin hpin => ?_
  rw [← count_legal_vals]
  exact count_congr_lt fun val hval =>
    decode_ofNat_legal_iff (Finset.mem_range.1 hop) (Finset.mem_range.1 hpin) hval

end Sys2Proof
end

section
/-! What a step does to the registers and the trace (10_state.md R22, R32; 20_memory.md R58): it is quiet, or it writes the one bit
that its command or its position names. The statements on single bits, on inputs and on the replayed trace follow from that. -/

namespace Sys2Proof.Machine

/-! ### The two ways -/

/-- The step writes no register: it adds to the trace nothing, a tick, or a report of the registers. -/
structure Quiet (s t : State) : Prop where
  data_eq : t.data = s.data
  dir_eq : t.dir = s.dir
  trace_eq : ∃ es, t.trace = s.trace ++ es ∧ (es = [] ∨ es = [.tick] ∨ es = [.report s.data s.dir])

/-- The step writes `v` to bit `p` of register `r`: registers and trace are those of `putBit` (R101). -/
structure Writes (s t : State) (r : Reg) (p : Fin 8) (v : Bit) : Prop where
  data_eq : t.data = (s.putBit r p v).data
  dir_eq : t.dir = (s.putBit r p v).dir
  trace_eq : t.trace = (s.putBit r p v).trace

theorem Quiet.of_same {s t : State} (hdata : t.data = s.data) (hdir : t.dir = s.dir) (htrace : t.trace = s.trace) :
    Quiet s t :=
  ⟨hdata, hdir, [], by rw [htrace, List.append_nil], .inl rfl⟩

theorem Quiet.of_tick {s t : State} (hdata : t.data = s.data) (hdir : t.dir = s.dir) (htrace : t.trace = s.trace ++ [.tick]) :
    Quiet s t :=
  ⟨hdata, hdir, _, htrace, .inr (.inl rfl)⟩

theorem Quiet.of_report {s t : State} (hdata : t.data = s.data) (hdir : t.dir = s.dir)
    (htrace : t.trace = s.trace ++ [.report s.data s.dir]) : Quiet s t :=
  ⟨hdata, hdir, _, htrace, .inr (.inr rfl)⟩

/-- A micro-step is quiet, or writes the bit its position names; a bit of DATA only where DIR makes it an output (R153 to R162). -/
theorem microStep_effect {c : Config} {s t : State} (h : microStep c s = .next t) :
    Quiet s t ∨ ∃ (r : Reg) (p : Fin 8) (v : Bit), positionTarget? c s.seq = some (r, (p.val : Int)) ∧ Writes s t r p v ∧
      (r = .data → s.dir.getLsbD p.val = true) := by
  rcases microStep_cases h with ⟨-, rfl⟩ | ⟨-, -, rfl⟩ | ⟨-, -, rfl⟩ | ⟨hs, p, hp, rfl⟩ | ⟨hs, p, hp, rfl⟩ |
    ⟨hs, p, hp, hout, rfl⟩ | ⟨-, rfl⟩ | ⟨hs, p, b, hp, hout, -, rfl⟩ | ⟨hs, p, hp, hout, rfl⟩ | ⟨-, rfl⟩ | ⟨-, rfl⟩ |
    ⟨-, -, rfl⟩ | ⟨-, -, rfl⟩ | ⟨e, -, rfl, -⟩
  · exact .inl (.of_report rfl rfl rfl)
  · exact .inl (.of_tick rfl rfl rfl)
  · exact .inl (.of_same rfl rfl rfl)
  · exact .inr ⟨.dir, p, 1#1, by rw [hs, positionTarget?, roleArg, hp], ⟨rfl, rfl, rfl⟩, nofun⟩
  · refine .inr ⟨.dir, p, 1#1, by rw [hs, positionTarget?, roleArg, hp], ⟨?_, ?_, ?_⟩, nofun⟩ <;> simp
  · exact .inr ⟨.data, p, _, by rw [hs, positionTarget?, roleArg, hp], ⟨rfl, rfl, rfl⟩, fun _ => hout⟩
  · exact .inl (.of_tick rfl rfl rfl)
  · exact .inr ⟨.data, p, b, by rw [hs, positionTarget?, roleArg, hp], ⟨rfl, rfl, rfl⟩, fun _ => hout⟩
  · exact .inr ⟨.data, p, _, by rw [hs, positionTarget?, roleArg, hp], ⟨rfl, rfl, rfl⟩, fun _ => hout⟩
  · exact .inl (.of_report rfl rfl rfl)
  · exact .inl (.of_tick (by simp) (by simp) (by simp))
  · exact .inl (.of_same rfl rfl rfl)
  · exact .inl (.of_same rfl rfl rfl)
  · exact .inl (.of_same rfl rfl rfl)

/-- A command is quiet, or writes the bit it names; a bit of DATA only where DIR makes it an output, or by WRBIT.DATA (R58). -/
theorem exec_effect {i : Instr} {s t : State} (h : exec i s = .next t) :
    Quiet s t ∨ ∃ (r : Reg) (p : Fin 8) (v : Bit), commandTarget? i = some (r, (p.val : Int)) ∧ Writes s t r p v ∧
      (r = .data → s.dir.getLsbD p.val = true ∨ i = .wrbitData p.val v.toNat) := by
  rcases (exec_cases h).2 with ⟨st, d, rfl⟩ | ⟨r, p, v, rfl, htarget, hout⟩ | ⟨b, -, -, rfl⟩ | ⟨-, rfl⟩
  · exact .inl (.of_same rfl rfl rfl)
  · exact .inr ⟨r, p, v, htarget, ⟨rfl, rfl, rfl⟩, hout⟩
  · exact .inl (.of_same rfl rfl rfl)
  · exact .inl (.of_same rfl rfl rfl)

/-! ### The bit a step names -/

theorem State.bitTarget?_of_command {s : State} {w : CmdWord} {i : Instr} {rest : List HostInput} {r : Reg} {p : Fin 8}
    (hagent : s.seq.agent = .host) (hhost : s.host = .command w :: rest) (hd : decode w = .ok i)
    (htarget : commandTarget? i = some (r, (p.val : Int))) : s.bitTarget? = some (r, p) := by
  simp [State.bitTarget?, hagent, hhost, hd, htarget, Except.toOption]

theorem State.bitTarget?_of_position {s : State} {r : Reg} {p : Fin 8} (hagent : s.seq.agent = .sequencer)
    (htarget : positionTarget? Config.block s.seq = some (r, (p.val : Int))) : s.bitTarget? = some (r, p) := by
  simp [State.bitTarget?, hagent, htarget]

/-- Neither the taking of an input nor the passing of a step shows in the registers and the trace. -/
theorem Quiet.of_withHost {s t : State} {host : List HostInput} (h : Quiet (s.withHost host) t) : Quiet s t :=
  ⟨h.data_eq, h.dir_eq, h.trace_eq⟩

theorem Writes.of_withHost {s t : State} {host : List HostInput} {r : Reg} {p : Fin 8} {v : Bit}
    (h : Writes (s.withHost host) t r p v) : Writes s t r p v := by
  cases r <;> exact ⟨h.data_eq, h.dir_eq, h.trace_eq⟩

/-- A step that is no reset is quiet, or writes the bit it names; a bit of DATA only where DIR makes it an output, or because the
host issued WRBIT.DATA of that bit (R22, R58). -/
theorem step_effect {s t : State} (hreset : s.resetNow = false) (h : step s = .next t) :
    Quiet s t ∨ ∃ (r : Reg) (p : Fin 8) (v : Bit), s.bitTarget? = some (r, p) ∧ Writes s t r p v ∧
      (r = .data → s.dir.getLsbD p.val = true ∨
        ∃ w rest, s.host = .command w :: rest ∧ decode w = .ok (.wrbitData p.val v.toNat)) := by
  rcases step_cases h with ⟨rest, hdue, -⟩ | ⟨-, hagent, w, i, rest, hhost, hd, hexec⟩ | ⟨-, -, w, e, rest, -, -, rfl⟩ |
    ⟨-, -, rfl, -⟩ | ⟨-, hagent, hmicro⟩
  · exact absurd hdue (State.resetNow_eq_false_iff.1 hreset rest)
  · rcases exec_effect hexec with hquiet | ⟨r, p, v, htarget, hwrites, hout⟩
    · exact .inl hquiet.of_withHost
    · refine .inr ⟨r, p, v, State.bitTarget?_of_command hagent hhost hd htarget, hwrites.of_withHost, fun hr => ?_⟩
      rcases hout hr with hdir | rfl
      · exact .inl hdir
      · exact .inr ⟨w, rest, hhost, hd⟩
  · exact .inl (.of_same rfl rfl rfl)
  · exact .inl (.of_same s.countdown_data s.countdown_dir s.countdown_trace)
  · rw [s.countdown_eq] at hmicro
    rcases microStep_effect hmicro with hquiet | ⟨r, p, v, htarget, hwrites, hout⟩
    · exact .inl hquiet.of_withHost
    · exact .inr ⟨r, p, v, State.bitTarget?_of_position hagent htarget, hwrites.of_withHost, fun hr => .inl (hout hr)⟩

/-! ### One bit at a time -/

/-- A quiet step adds no EvWrite to the trace. -/
theorem Quiet.countP_isWrite {s t : State} (h : Quiet s t) : t.trace.countP Event.isWrite = s.trace.countP Event.isWrite := by
  obtain ⟨es, htrace, hes⟩ := h.trace_eq
  have hnone : es.countP Event.isWrite = 0 := by
    rcases hes with rfl | rfl | rfl <;> rfl
  rw [htrace, List.countP_append, hnone, Nat.add_zero]

theorem Writes.reg_getLsbD {s t : State} {r : Reg} {p : Fin 8} {v : Bit} (h : Writes s t r p v) (r' : Reg) (q : Fin 8) :
    (t.reg r').getLsbD q.val = if r' = r ∧ q = p then decide (v = 1#1) else (s.reg r').getLsbD q.val := by
  have hreg : t.reg r' = (s.putBit r p v).reg r' := by
    cases r' with
    | data => exact h.data_eq
    | dir => exact h.dir_eq
  rw [hreg, State.putBit_getLsbD]

/-- Settles O50: a quiet step, or the bits and the event of `putBit`. -/
theorem aStepChangesAtMostOneBit : Obligations.AStepChangesAtMostOneBit := by
  intro s t hreset h
  rcases step_effect hreset h with hquiet | ⟨r, p, v, htarget, hwrites, -⟩
  · exact .inl ⟨hquiet.data_eq, hquiet.dir_eq, hquiet.countP_isWrite⟩
  · exact .inr ⟨r, p, v, htarget, hwrites.trace_eq.trans (s.putBit_trace r p v), hwrites.reg_getLsbD⟩

/-- Settles O51: the changed bit is the one the step writes, and DIR leaves only WRBIT.DATA for it. -/
theorem inputPinsKeepTheirDataBit : Obligations.InputPinsKeepTheirDataBit := by
  intro s t p hp hreset h hinput hchanged
  rcases step_effect hreset h with hquiet | ⟨r, q, v, -, hwrites, hout⟩
  · exact absurd (by rw [hquiet.data_eq]) hchanged
  · have hbit := hwrites.reg_getLsbD .data ⟨p, hp⟩
    split at hbit
    case isTrue htarget =>
      obtain ⟨rfl, rfl⟩ := htarget
      rcases hout rfl with houtput | ⟨w, rest, hhost, hd⟩
      · exact absurd (hinput.symm.trans houtput) nofun
      · exact ⟨w, v.toNat, rest, hhost, hd⟩
    case isFalse => exact absurd hbit hchanged

/-! ### The trace replayed -/

theorem replay_append (rs : Byte × Byte) (es fs : List Event) :
    replay rs (es ++ fs) = (replay rs es).bind fun rs' => replay rs' fs := by
  induction es generalizing rs with
  | nil => rfl
  | cons e es ih =>
    rw [List.cons_append, replay, replay]
    cases replayEvent rs e with
    | none => rfl
    | some rs' => exact ih rs'

/-- The EvWrite of a `write_bit` replays it (R32, R101). -/
theorem replay_write (s : State) (r : Reg) (p : Fin 8) (v : Bit) :
    replay (s.data, s.dir) [.write r p v] = some ((s.putBit r p v).data, (s.putBit r p v).dir) := by
  cases r <;> rfl

/-- A report of the registers as they stand is right (R32). -/
theorem replay_report (s : State) : replay (s.data, s.dir) [.report s.data s.dir] = some (s.data, s.dir) := by
  simp [replay, replayEvent]

/-- The events a step adds replay what it does to the registers (R32). -/
theorem exists_replay_of_step {s t : State} (hreset : s.resetNow = false) (h : step s = .next t) :
    ∃ es, t.trace = s.trace ++ es ∧ replay (s.data, s.dir) es = some (t.data, t.dir) := by
  rcases step_effect hreset h with ⟨hdata, hdir, es, htrace, hes⟩ | ⟨r, p, v, -, ⟨hdata, hdir, htrace⟩, -⟩
  · refine ⟨es, htrace, ?_⟩
    rw [hdata, hdir]
    rcases hes with rfl | rfl | rfl
    · rfl
    · rfl
    · exact replay_report s
  · refine ⟨[.write r p v], htrace.trans (s.putBit_trace r p v), ?_⟩
    rw [hdata, hdir]
    exact replay_write s r p v

/-- Settles O52: at reset the trace is empty; after any other step its new events replay the change. -/
theorem traceReconstructsTheRegisters : Obligations.TraceReconstructsTheRegisters := by
  refine ⟨rfl, fun s t hreplay h => ?_⟩
  by_cases hreset : s.resetNow = false
  · obtain ⟨es, htrace, hes⟩ := exists_replay_of_step hreset h
    rw [htrace, replay_append, hreplay]
    exact hes
  · rw [State.resetNow_eq_false_iff, not_forall] at hreset
    obtain ⟨rest, hhost⟩ := hreset
    cases (step_of_reset_due (not_not.1 hhost)).symm.trans h
    rfl

end Sys2Proof.Machine
end

section
/-! What a step does to BUF (10_state.md R25) and to SEQ (43_serial_transmitter.md R151). -/

namespace Sys2Proof.Machine

/-! ### BUF -/

/-- A micro-step leaves BUF, or ends the session and empties it (R163). -/
theorem microStep_buf {c : Config} {s t : State} (h : microStep c s = .next t) :
    t.buf = s.buf ∨ (t.seq = .done ∧ t.buf = []) := by
  have hdispatch (u : State) (i : Nat) (hu : u.buf = s.buf) :
      (u.dispatch i).buf = s.buf ∨ ((u.dispatch i).seq = .done ∧ (u.dispatch i).buf = []) := by
    rcases u.dispatch_cases i with ⟨-, heq⟩ | ⟨-, -, heq⟩ | ⟨-, -, heq⟩ <;> rw [heq]
    · exact .inr ⟨rfl, rfl⟩
    · exact .inl hu
    · exact .inl hu
  rcases microStep_cases h with ⟨-, rfl⟩ | ⟨-, -, rfl⟩ | ⟨-, -, rfl⟩ | ⟨-, p, -, rfl⟩ | ⟨-, p, -, rfl⟩ | ⟨-, p, -, -, rfl⟩ |
    ⟨-, rfl⟩ | ⟨-, p, b, -, -, -, rfl⟩ | ⟨-, p, -, -, rfl⟩ | ⟨-, rfl⟩ | ⟨-, rfl⟩ | ⟨-, -, rfl⟩ | ⟨-, -, rfl⟩ | ⟨e, -, rfl, -⟩
  any_goals exact .inl rfl
  · exact hdispatch _ 0 rfl
  · exact hdispatch s.tick _ rfl

/-- Settles O54: of the commands ENCB alone writes BUF, and of the micro-steps the last one. -/
theorem bufferChangesOnlyByEncbAndDone : Obligations.BufferChangesOnlyByEncbAndDone := by
  intro s t hreset h
  rcases step_cases h with ⟨rest, hdue, -⟩ | ⟨-, -, w, i, rest, hhost, hd, hexec⟩ | ⟨-, -, w, e, rest, -, -, rfl⟩ |
    ⟨-, -, rfl, -⟩ | ⟨-, hagent, hmicro⟩
  · exact absurd hdue (State.resetNow_eq_false_iff.1 hreset rest)
  · rcases (exec_cases hexec).2 with ⟨st, d, rfl⟩ | ⟨r, p, v, rfl, -, -⟩ | ⟨b, rfl, -, rfl⟩ | ⟨-, rfl⟩
    · exact .inl rfl
    · exact .inl (by simp)
    · exact .inr (.inl ⟨w, b, rest, hhost, hd, rfl⟩)
    · exact .inl rfl
  · exact .inl rfl
  · exact .inl s.countdown_buf
  · rcases microStep_buf hmicro with hbuf | ⟨hdone, hbuf⟩
    · exact .inl (hbuf.trans s.countdown_buf)
    · exact .inr (.inr ⟨hagent, hdone, hbuf⟩)

/-! ### SEQ -/

/-- A micro-step takes an edge of the graph of R151. -/
theorem microStep_edge {c : Config} {s t : State} (h : microStep c s = .next t) : (s.seq, t.seq) ∈ seqEdges := by
  rcases microStep_cases h with ⟨hs, rfl⟩ | ⟨hs, -, rfl⟩ | ⟨hs, -, rfl⟩ | ⟨hs, p, -, rfl⟩ | ⟨hs, p, -, rfl⟩ |
    ⟨hs, p, -, -, rfl⟩ | ⟨hs, rfl⟩ | ⟨hs, p, b, -, -, -, rfl⟩ | ⟨hs, p, -, -, rfl⟩ | ⟨hs, rfl⟩ | ⟨hs, rfl⟩ | ⟨hs, -, rfl⟩ |
    ⟨hs, -, rfl⟩ | ⟨e, -, rfl, ⟨hs, -⟩ | ⟨hs, -⟩ | ⟨hs, -⟩⟩
  any_goals (simp [hs, seqEdges]; done)
  · rcases (s.putBit .dir p 1#1).dispatch_cases 0 with ⟨-, heq⟩ | ⟨-, -, heq⟩ | ⟨-, hbyte, -⟩
    · simp [hs, heq, seqEdges]
    · simp [hs, heq, seqEdges]
    · exact absurd rfl hbyte
  · rcases s.tick.dispatch_cases (s.idx + 1) with ⟨-, heq⟩ | ⟨-, -, heq⟩ | ⟨-, -, heq⟩ <;> simp [hs, heq, seqEdges]

/-- An edge of SEQ stays in a protocol state or takes an edge of the source's graph (R151). -/
theorem fsm_of_seqEdge : ∀ e ∈ seqEdges, e.2.fsm = e.1.fsm ∨ (e.1.fsm, e.2.fsm) ∈ fsmEdges := by decide

/-- A command leaves SEQ, but for SEND (R150). -/
theorem exec_seq {i : Instr} {s t : State} (h : exec i s = .next t) : t.seq = s.seq ∨ (i = .send ∧ t.seq = .iReport) := by
  rcases (exec_cases h).2 with ⟨st, d, rfl⟩ | ⟨r, p, v, rfl, -, -⟩ | ⟨b, -, -, rfl⟩ | ⟨rfl, rfl⟩
  · exact .inl rfl
  · exact .inl (by simp)
  · exact .inl rfl
  · exact .inr ⟨rfl, rfl⟩

/-- SEND's word is the only one that decodes to SEND (R74). -/
theorem eq_send_word_of_decode {w : CmdWord} (h : decode w = .ok .send) : w = 0xA000#16 :=
  (encodeOfDecodeIsTheWord w .send h).2.symm

/-- A block that starts a session goes from IDLE or DONE to I_REPORT (R150). -/
theorem iReport_edge_of_host {s : State} (hagent : s.seq.agent = .host) : (s.seq, SeqPos.iReport) ∈ seqEdges := by
  rcases s.ready_iff.1 (s.ready_iff_agent.2 hagent) with hs | hs <;>
  · rw [hs]
    decide

/-- The host's turn takes SEND's edge with SEND's word, and leaves SEQ with anything else (R27, R150). -/
theorem hostTurn_seq {s t : State} (hreset : s.resetNow = false) (hagent : s.seq.agent = .host) (h : step s = .next t) :
    (∃ rest, s.host = .command 0xA000#16 :: rest) ∧ t.seq = .iReport ∨
      (∀ rest, s.host ≠ .command 0xA000#16 :: rest) ∧ t.seq = s.seq := by
  by_cases hsend : ∃ rest, s.host = .command 0xA000#16 :: rest
  · obtain ⟨rest, hhost⟩ := hsend
    have hready := s.ready_iff_agent.2 hagent
    have hstep := (step_of_presented_encode (i := .send) hready hhost rfl).trans
      (exec_send_of_ready (s := s.withHost rest) hready)
    cases hstep.symm.trans h
    exact .inl ⟨⟨rest, hhost⟩, rfl⟩
  · refine .inr ⟨not_exists.1 hsend, ?_⟩
    rcases step_cases h with ⟨rest, hdue, -⟩ | ⟨-, -, w, i, rest, hhost, hd, hexec⟩ | ⟨-, -, w, e, rest, -, -, rfl⟩ |
      ⟨-, -, rfl, -⟩ | ⟨-, hsequencer, -⟩
    · exact absurd hdue (State.resetNow_eq_false_iff.1 hreset rest)
    · rcases exec_seq hexec with hseq | ⟨rfl, -⟩
      · exact hseq
      · rw [eq_send_word_of_decode hd] at hhost
        exact absurd ⟨rest, hhost⟩ hsend
    · rfl
    · exact s.countdown_seq
    · exact absurd (hagent.symm.trans hsequencer) nofun

/-- Settles O55: each agent's step by its lemma; the protocol state follows SEQ along the edges. -/
theorem stepsFollowTheStateGraph : Obligations.StepsFollowTheStateGraph := by
  intro s t hreset h
  cases hagent : s.seq.agent with
  | host =>
    rcases hostTurn_seq hreset hagent h with ⟨⟨rest, hhost⟩, hseq⟩ | ⟨hother, hseq⟩
    · have hedge : (s.seq, t.seq) ∈ seqEdges := by
        rw [hseq]
        exact iReport_edge_of_host hagent
      exact ⟨nofun, fun _ => ⟨fun _ _ => ⟨hseq, hedge⟩, fun hno => absurd hhost (hno rest)⟩, nofun, fsm_of_seqEdge _ hedge⟩
    · exact ⟨nofun, fun _ => ⟨fun rest hhost => absurd hhost (hother rest), fun _ => hseq⟩, nofun, .inl (by rw [hseq])⟩
  | sequencer =>
    have hedge : (s.seq, t.seq) ∈ seqEdges := by
      rw [← s.countdown_seq]
      exact microStep_edge ((step_of_sequencer hreset hagent).symm.trans h)
    exact ⟨fun _ => hedge, nofun, nofun, fsm_of_seqEdge _ hedge⟩
  | nobody =>
    have hs := SeqPos.agent_eq_nobody_iff.1 hagent
    rcases onlyResetLeavesAborted s t hs h with ⟨heq, -⟩ | ⟨rest, hdue, -⟩
    · have hseq : t.seq = s.seq := by rw [heq]
      exact ⟨nofun, nofun, fun _ => hseq, .inl (by rw [hseq])⟩
    · exact absurd hdue (State.resetNow_eq_false_iff.1 hreset rest)

end Sys2Proof.Machine
end

section
/-! What the commands and the sequencer read (10_state.md R33, R37; 41_port_controller.md R129; 44_state_reporter.md R192): a procedure
reads the two registers alone, so it does the same in two states that agree on them; the trace and the last response are read by
nothing. -/

namespace Sys2Proof.Machine

/-! ### The procedures read the registers alone -/

/-- The two states agree on DATA and DIR. -/
structure SameRegs (s u : State) : Prop where
  data_eq : u.data = s.data
  dir_eq : u.dir = s.dir

/-- A procedure called at `s` and at `u` puts the same bit, or raises the same error, which is not InternalConsistencyFault. -/
def CallsAlike (s u : State) (r q : Except Status State) : Prop :=
  (∃ (reg : Reg) (p : Fin 8) (v : Bit), r = .ok (s.putBit reg p v) ∧ q = .ok (u.putBit reg p v)) ∨
  ∃ e, e ≠ .internalConsistencyFault ∧ r = .error e ∧ q = .error e

section Calls

variable {s u : State}

theorem SameRegs.refl (s : State) : SameRegs s s := ⟨rfl, rfl⟩

theorem SameRegs.reg_eq (h : SameRegs s u) (r : Reg) : u.reg r = s.reg r := by
  cases r with
  | data => exact h.data_eq
  | dir => exact h.dir_eq

theorem SameRegs.putBit (h : SameRegs s u) (r : Reg) (p : Fin 8) (v : Bit) : SameRegs (s.putBit r p v) (u.putBit r p v) := by
  cases r <;> constructor <;> simp [h.data_eq, h.dir_eq]

theorem SameRegs.readBit (h : SameRegs s u) (r : Reg) (pin : Int) : readBit u r pin = readBit s r pin := by
  unfold Machine.readBit
  rw [h.reg_eq]

theorem CallsAlike.error {e : Status} (he : e ≠ .internalConsistencyFault) : CallsAlike s u (.error e) (.error e) :=
  .inr ⟨e, he, rfl, rfl⟩

/-- The two checks of `write_bit` are on its arguments (R101). -/
theorem writeBit_alike (s u : State) (r : Reg) (pin value : Int) :
    CallsAlike s u (writeBit s r pin value) (writeBit u r pin value) := by
  unfold writeBit
  cases pinIndex? pin with
  | none => exact .error (by decide)
  | some p =>
    cases bitValue? value with
    | none => exact .error (by decide)
    | some v => exact .inl ⟨r, p, v, rfl, rfl⟩

theorem SameRegs.writePin (h : SameRegs s u) (pin value : Int) :
    CallsAlike s u (writePin s pin value) (writePin u pin value) := by
  unfold Machine.writePin
  rw [h.readBit]
  rcases readBit_cases s .dir pin with ⟨p, -, hread⟩ | ⟨-, hread⟩ <;> rw [hread] <;> dsimp only
  · split
    · exact .error (by decide)
    · exact writeBit_alike s u .data pin value
  · exact .error (by decide)

/-- The bit read is 0 or 1, so the arm of InternalConsistencyFault is dead (R129). -/
theorem SameRegs.togglePin (h : SameRegs s u) (pin : Int) : CallsAlike s u (togglePin s pin) (togglePin u pin) := by
  unfold Machine.togglePin readPin
  rw [h.readBit]
  rcases readBit_cases s .data pin with ⟨p, -, hread⟩ | ⟨-, hread⟩ <;> rw [hread] <;> dsimp only
  · rw [if_neg, if_neg]
    · exact h.writePin pin _
    all_goals cases (s.reg .data).getLsbD p.val <;> decide
  · exact .error (by decide)

end Calls

/-! ### InternalConsistencyFault -/

/-- The block does not answer InternalConsistencyFault. -/
def State.Consistent (s : State) : Prop := ∀ d, s.resp ≠ some (respWord .internalConsistencyFault d)

theorem State.consistent_respond (s : State) {st : Status} (h : st ≠ .internalConsistencyFault) (d : BitVec 16) :
    (s.respond st d).Consistent := fun _ hresp => h (respWord_inj (Option.some.inj hresp)).1

theorem consistent_completeRead (s : State) (r : Reg) (pin : Int) : (completeRead s (readBit s r pin)).Consistent := by
  rcases readBit_cases s r pin with ⟨p, -, hread⟩ | ⟨-, hread⟩ <;> rw [hread] <;>
    exact State.consistent_respond _ (by decide) _

theorem CallsAlike.consistent_completeWrite {s : State} {r : Except Status State} (h : CallsAlike s s r r) :
    (completeWrite s r).Consistent := by
  rcases h with ⟨reg, p, v, rfl, -⟩ | ⟨e, he, rfl, -⟩
  · exact State.consistent_respond _ (by decide) _
  · exact State.consistent_respond _ he _

theorem consistent_encodeByte (cap : Option Nat) (b : Byte) (s : State) : (encodeByte cap b s).Consistent := by
  unfold encodeByte
  split <;> exact State.consistent_respond _ (by decide) _

/-- No command answers InternalConsistencyFault (R129). -/
theorem exec_consistent {i : Instr} {s t : State} (h : exec i s = .next t) : t.Consistent := by
  have hregs := SameRegs.refl s
  cases i <;> obtain ⟨-, rfl⟩ := whenReady_eq_next.1 h
  case rdbitData | rdbitDir | rdpin => exact consistent_completeRead s _ _
  case wrbitData | wrbitDir | cfgdir => exact (writeBit_alike s s _ _ _).consistent_completeWrite
  case wrpin => exact (hregs.writePin _ _).consistent_completeWrite
  case tglpin => exact (hregs.togglePin _).consistent_completeWrite
  case encb => exact consistent_encodeByte _ _ s
  case send => exact fun _ => nofun
  case render => exact State.consistent_respond s (by decide) _

/-- Settles O10: `read_bit` by its two outcomes, the other clauses by what the procedures can raise. -/
theorem internalConsistencyFaultNeverArises : Obligations.InternalConsistencyFaultNeverArises := by
  refine ⟨fun s r pin b h => ?_, fun s pin h => ?_, fun i s t d h => exec_consistent h d⟩
  · rcases readBit_cases s r pin with ⟨p, -, hread⟩ | ⟨-, hread⟩
    · cases hread.symm.trans h
      cases (s.reg r).getLsbD p.val
      · exact .inl rfl
      · exact .inr rfl
    · cases hread.symm.trans h
  · rcases (SameRegs.refl s).togglePin pin with ⟨r, p, v, hok, -⟩ | ⟨e, he, herror, -⟩
    · cases hok.symm.trans h
    · cases herror.symm.trans h
      exact he rfl

/-! ### What commands other than SEND and ENCB show -/

/-- The two states show the same registers and the same response. -/
structure ShowsAlike (t t' : State) : Prop where
  resp_eq : t'.resp = t.resp
  data_eq : t'.data = t.data
  dir_eq : t'.dir = t.dir

section Shows

variable {s u : State}

theorem SameRegs.respond (h : SameRegs s u) (st : Status) (d : BitVec 16) : ShowsAlike (s.respond st d) (u.respond st d) :=
  ⟨rfl, h.data_eq, h.dir_eq⟩

theorem SameRegs.completeRead (h : SameRegs s u) (r : Reg) (pin : Int) :
    ShowsAlike (completeRead s (Machine.readBit s r pin)) (completeRead u (Machine.readBit u r pin)) := by
  rw [h.readBit]
  cases Machine.readBit s r pin <;> exact h.respond _ _

theorem SameRegs.completeWrite (h : SameRegs s u) {r q : Except Status State} (hcall : CallsAlike s u r q) :
    ShowsAlike (completeWrite s r) (completeWrite u q) := by
  rcases hcall with ⟨reg, p, v, rfl, rfl⟩ | ⟨e, -, rfl, rfl⟩
  · exact (h.putBit reg p v).respond _ _
  · exact h.respond _ _

/-- Settles O24: what a command reads is the registers, and a ready block completes it. -/
theorem hiddenStateIsNotReadable : Obligations.HiddenStateIsNotReadable := by
  intro i s u t hdata hdir hready hsend hencb hexec
  have hregs : SameRegs s u := ⟨hdata, hdir⟩
  suffices h : ∃ t', exec i u = .next t' ∧ ShowsAlike t t' by
    obtain ⟨t', hexec', hshows⟩ := h
    exact ⟨t', hexec', hshows.resp_eq, hshows.data_eq, hshows.dir_eq⟩
  cases i <;> obtain ⟨-, rfl⟩ := whenReady_eq_next.1 hexec
  case rdbitData | rdbitDir | rdpin => exact ⟨_, whenReady_of_ready hready, hregs.completeRead _ _⟩
  case wrbitData | wrbitDir | cfgdir => exact ⟨_, whenReady_of_ready hready, hregs.completeWrite (writeBit_alike s u _ _ _)⟩
  case wrpin => exact ⟨_, whenReady_of_ready hready, hregs.completeWrite (hregs.writePin _ _)⟩
  case tglpin => exact ⟨_, whenReady_of_ready hready, hregs.completeWrite (hregs.togglePin _)⟩
  case encb b => exact absurd rfl (hencb b)
  case send => exact absurd rfl hsend
  case render =>
    refine ⟨_, whenReady_of_ready hready, ?_⟩
    rw [hdata, hdir]
    exact hregs.respond _ _

end Shows

/-! ### The trace and the last response are not read -/

/-- The state with another trace and another last response. -/
def State.shown (s : State) (past : List Event) (last : Option RespWord) : State := { s with trace := past, resp := last }

theorem State.sameRegs_shown (s : State) (past : List Event) (last : Option RespWord) : SameRegs s (s.shown past last) :=
  ⟨rfl, rfl⟩

/-- From `s` with another trace and response, `t'` is `t` but for those: the same events are added, and the response is given, or is
the old one in both. -/
def Blindly (s t : State) (past : List Event) (last : Option RespWord) (t' : State) : Prop :=
  ∃ (events : List Event) (last' : Option RespWord), t.trace = s.trace ++ events ∧ t' = t.shown (past ++ events) last' ∧
    (last' = t.resp ∨ (t.resp = s.resp ∧ last' = last))

/-- An update that neither reads the trace nor the last response. -/
def Blind (f : State → State) : Prop := ∀ s past last, Blindly s (f s) past last (f (s.shown past last))

theorem Blind.comp {f g : State → State} (hg : Blind g) (hf : Blind f) : Blind fun s => g (f s) := by
  intro s past last
  obtain ⟨es, last', htrace, heq, hresp⟩ := hf s past last
  obtain ⟨fs, last'', htrace', heq', hresp'⟩ := hg (f s) (past ++ es) last'
  refine ⟨es ++ fs, last'', ?_, ?_, ?_⟩
  · rw [htrace', htrace, List.append_assoc]
  · change g (f (s.shown past last)) = _
    rw [heq, heq', List.append_assoc]
  · rcases hresp' with hgiven | ⟨hkept, rfl⟩
    · exact .inl hgiven
    · rcases hresp with hgiven | ⟨hkept', rfl⟩
      · exact .inl (hgiven.trans hkept.symm)
      · exact .inr ⟨hkept.trans hkept', rfl⟩

/-- An update that adds no event and gives no response. -/
theorem Blind.of_quiet {f : State → State} (hf : ∀ s past last, f (s.shown past last) = (f s).shown past last)
    (htrace : ∀ s, (f s).trace = s.trace) (hresp : ∀ s, (f s).resp = s.resp) : Blind f := fun s past last =>
  ⟨[], last, by rw [htrace, List.append_nil], by rw [hf, List.append_nil], .inr ⟨hresp s, rfl⟩⟩

section Blind

theorem blind_goto (p : SeqPos) : Blind fun s => s.goto p := .of_quiet (fun _ _ _ => rfl) (fun _ => rfl) fun _ => rfl

theorem blind_tick : Blind State.tick := fun _ _ last => ⟨[.tick], last, rfl, rfl, .inr ⟨rfl, rfl⟩⟩

/-- A report reads the registers (R32). -/
theorem blind_report : Blind State.report := fun s _ last => ⟨[.report s.data s.dir], last, rfl, rfl, .inr ⟨rfl, rfl⟩⟩

theorem blind_respond (st : Status) (d : BitVec 16) : Blind fun s => s.respond st d := fun s _ _ =>
  ⟨[], some (respWord st d), by simp, by rw [List.append_nil]; rfl, .inl rfl⟩

theorem blind_putBit (r : Reg) (p : Fin 8) (v : Bit) : Blind fun s => s.putBit r p v := fun s past last =>
  ⟨[.write r p v], last, s.putBit_trace r p v, by cases r <;> rfl, .inr ⟨s.putBit_resp r p v, rfl⟩⟩

theorem blind_abort (e : Status) : Blind fun s => s.abort e := fun s _ _ =>
  ⟨[], some (respWord e 0#16), by simp, by rw [List.append_nil]; rfl, .inl rfl⟩

theorem blind_finish : Blind State.finish := fun s _ _ =>
  ⟨[], some (respWord .ok 0#16), by simp, by rw [List.append_nil]; rfl, .inl rfl⟩

theorem blind_startSession (c : Config) : Blind fun s => s.startSession c := fun s _ _ =>
  ⟨[], none, by simp, by rw [List.append_nil]; rfl, .inl rfl⟩

/-- `dispatch` reads BUF and its index (R152). -/
theorem blind_dispatch (next : State → Nat) (hnext : ∀ s past last, next (s.shown past last) = next s) :
    Blind fun s => s.dispatch (next s) := by
  intro s past last
  simp only [hnext]
  rcases Nat.lt_or_ge (next s) s.buf.length with hlt | hge
  · rw [State.dispatch_of_lt hlt, State.dispatch_of_lt (s := s.shown past last) hlt]
    exact ⟨[], last, (List.append_nil _).symm, by rw [List.append_nil]; rfl, .inr ⟨rfl, rfl⟩⟩
  · rw [State.dispatch_of_length_le hge, State.dispatch_of_length_le (s := s.shown past last) hge]
    exact blind_finish s past last

/-- A procedure that reads the registers alone leaves a blind update, whatever follows it in the session (R164). -/
theorem blind_orAbort {call : State → Except Status State} (hcall : ∀ s u, SameRegs s u → CallsAlike s u (call s) (call u))
    {go : State → State} (hgo : Blind go) : Blind fun s => orAbort s (call s) go := by
  intro s past last
  rcases hcall s _ (s.sameRegs_shown past last) with ⟨r, p, v, hok, hok'⟩ | ⟨e, -, herror, herror'⟩
  · simp only [hok, hok', orAbort_ok]
    exact hgo.comp (blind_putBit r p v) s past last
  · simp only [herror, herror', orAbort_error]
    exact blind_abort e s past last

theorem blind_completeWrite {call : State → Except Status State}
    (hcall : ∀ s u, SameRegs s u → CallsAlike s u (call s) (call u)) : Blind fun s => completeWrite s (call s) := by
  intro s past last
  rcases hcall s _ (s.sameRegs_shown past last) with ⟨r, p, v, hok, hok'⟩ | ⟨e, -, herror, herror'⟩
  · simp only [hok, hok', completeWrite_ok]
    exact (blind_respond .ok 0#16).comp (blind_putBit r p v) s past last
  · simp only [herror, herror', completeWrite_error]
    exact blind_respond e 0#16 s past last

theorem blind_completeRead (r : Reg) (pin : Int) : Blind fun s => completeRead s (readBit s r pin) := by
  intro s past last
  simp only [(s.sameRegs_shown past last).readBit]
  cases readBit s r pin with
  | ok b => exact blind_respond _ _ s past last
  | error e => exact blind_respond _ _ s past last

theorem blind_encodeByte (cap : Option Nat) (b : Byte) : Blind (encodeByte cap b) := by
  intro s past last
  by_cases hfull : overCap cap (s.buf.length + 8) = true
  · rw [encodeByte_of_full hfull, encodeByte_of_full (s := s.shown past last) hfull]
    exact ⟨[], _, (List.append_nil _).symm, by rw [List.append_nil]; rfl, .inl rfl⟩
  · rw [encodeByte_of_fits hfull, encodeByte_of_fits (s := s.shown past last) hfull]
    exact ⟨[], _, (List.append_nil _).symm, by rw [List.append_nil]; rfl, .inl rfl⟩

end Blind

/-! ### Steps are blind -/

/-- A part of the machine that does not read the trace and the last response. -/
def BlindStep (next : State → Host.Outcome State Fault Refusal) : Prop := ∀ s t past last, next s = .next t →
  ∃ t', next (s.shown past last) = .next t' ∧ Blindly s t past last t'

theorem blindStep_whenReady {f : State → State} (hf : Blind f) : BlindStep fun s => whenReady s (f s) := by
  intro s t past last h
  obtain ⟨hready, rfl⟩ := whenReady_eq_next.1 h
  exact ⟨_, whenReady_of_ready (s := s.shown past last) hready, hf s past last⟩

/-- Every command is blind (R33). -/
theorem blindStep_exec (i : Instr) : BlindStep (exec i) := by
  cases i with
  | rdbitData pin | rdbitDir pin | rdpin pin => exact blindStep_whenReady (blind_completeRead _ _)
  | wrbitData pin val | wrbitDir pin val | cfgdir pin val =>
    exact blindStep_whenReady (blind_completeWrite fun s u _ => writeBit_alike s u _ _ _)
  | wrpin pin val => exact blindStep_whenReady (blind_completeWrite fun _ _ h => h.writePin _ _)
  | tglpin pin => exact blindStep_whenReady (blind_completeWrite fun _ _ h => h.togglePin _)
  | encb b => exact blindStep_whenReady (blind_encodeByte _ b)
  | send => exact blindStep_whenReady (blind_startSession _)
  | render =>
    refine blindStep_whenReady fun s past last => ?_
    exact blind_respond .ok (s.data ++ s.dir) s past last

/-- The settle step reads SETTLE_CNT (R154). -/
theorem blind_stepISettle : Blind stepISettle := by
  intro s past last
  rcases Nat.eq_zero_or_pos s.settleCnt with hzero | hpos
  · rw [stepISettle_of_zero hzero, stepISettle_of_zero (s := s.shown past last) hzero]
    exact blind_goto .iCfgData s past last
  · rw [stepISettle_of_pos hpos, stepISettle_of_pos (s := s.shown past last) hpos]
    exact ⟨[.tick], last, rfl, rfl, .inr ⟨rfl, rfl⟩⟩

/-- Every micro-step is blind (R33, R192). -/
theorem blindStep_microStep (c : Config) : BlindStep (microStep c) := by
  intro s t past last h
  have hstep {f : State → State} (hf : Blind f) (hs : microStep c s = .next (f s))
      (hs' : microStep c (s.shown past last) = .next (f (s.shown past last))) :
      ∃ t', microStep c (s.shown past last) = .next t' ∧ Blindly s t past last t' := by
    cases hs.symm.trans h
    exact ⟨_, hs', hf s past last⟩
  have hconfigure (role : Byte) (s u : State) (_ : SameRegs s u) :
      CallsAlike s u (configureDirection s (roleArg role) 1) (configureDirection u (roleArg role) 1) :=
    writeBit_alike s u .dir _ _
  cases hseq : s.seq with
  | idle | done | aborted =>
    rw [microStep_of_not_sequencer c (by rw [hseq]; nofun)] at h
    cases h
  | iReport => exact hstep ((blind_goto .iSettle).comp blind_report) (microStep_iReport c hseq) (microStep_iReport c hseq)
  | iSettle => exact hstep blind_stepISettle (microStep_iSettle c hseq) (microStep_iSettle c hseq)
  | iCfgData =>
    exact hstep (blind_orAbort (hconfigure c.dataPin) (blind_goto .iCfgClock)) (microStep_iCfgData c hseq)
      (microStep_iCfgData c hseq)
  | iCfgClock =>
    exact hstep (blind_orAbort (hconfigure c.clockPin) (blind_dispatch (fun _ => 0) fun _ _ _ => rfl))
      (microStep_iCfgClock c hseq) (microStep_iCfgClock c hseq)
  | aToggle =>
    exact hstep (blind_orAbort (fun _ _ h => h.togglePin _) (blind_goto .aTick)) (microStep_aToggle c hseq)
      (microStep_aToggle c hseq)
  | aTick => exact hstep ((blind_goto .tData).comp blind_tick) (microStep_aTick c hseq) (microStep_aTick c hseq)
  | tData =>
    cases hbit : s.buf[s.idx]? with
    | none =>
      rw [microStep, hseq] at h
      simp only [hbit] at h
      cases h
    | some b =>
      exact hstep (blind_orAbort (fun _ _ h => h.writePin _ _) (blind_goto .tStrobe)) (microStep_tData c hseq hbit)
        (microStep_tData c hseq hbit)
  | tStrobe =>
    exact hstep (blind_orAbort (fun _ _ h => h.togglePin _) (blind_goto .tReport)) (microStep_tStrobe c hseq)
      (microStep_tStrobe c hseq)
  | tReport => exact hstep ((blind_goto .tTick).comp blind_report) (microStep_tReport c hseq) (microStep_tReport c hseq)
  | tTick =>
    exact hstep ((blind_dispatch (fun s => s.idx + 1) fun _ _ _ => rfl).comp blind_tick) (microStep_tTick c hseq)
      (microStep_tTick c hseq)

theorem State.shown_countdown (s : State) (past : List Event) (last : Option RespWord) :
    (s.shown past last).countdown = s.countdown.shown past last := by
  rcases hhost : s.host with _ | ⟨⟨w⟩ | ⟨_ | n⟩, rest⟩ <;> simp [State.countdown, State.shown, State.withHost, hhost]

/-- The passing of a step is no change of the block (log 3). -/
theorem blind_countdown : Blind State.countdown :=
  .of_quiet State.shown_countdown State.countdown_trace State.countdown_resp

theorem hostTurn_of_no_command {s : State} (h : ∀ w rest, s.host ≠ .command w :: rest) :
    hostTurn s = .next s.countdown := by
  unfold hostTurn
  split
  case h_1 w rest hhost => exact absurd hhost (h w rest)
  case h_2 => rfl

/-- A step of the machine that is no reset is blind (R33, R192). -/
theorem step_blind {s t : State} (past : List Event) (last : Option RespWord) (hreset : s.resetNow = false)
    (h : step s = .next t) : ∃ t', step (s.shown past last) = .next t' ∧ Blindly s t past last t' := by
  rcases step_cases h with ⟨rest, hdue, -⟩ | ⟨-, hagent, w, i, rest, hhost, hd, hexec⟩ |
    ⟨-, hagent, w, e, rest, hhost, hd, rfl⟩ | ⟨-, hagent, rfl, hnone⟩ | ⟨-, hagent, hmicro⟩
  · exact absurd hdue (State.resetNow_eq_false_iff.1 hreset rest)
  · have hstep : step (s.shown past last) = exec i ((s.withHost rest).shown past last) :=
      (step_of_presented_command (s := s.shown past last) (State.ready_iff_agent _ |>.2 hagent) hhost).trans (runCommand_of_decoded _ hd)
    rw [hstep]
    exact blindStep_exec i _ t past last hexec
  · have hstep : step (s.shown past last) = .next (rejectCommand ((s.withHost rest).shown past last)) :=
      (step_of_presented_command (s := s.shown past last) (State.ready_iff_agent _ |>.2 hagent) hhost).trans (runCommand_of_reserved _ hd)
    rw [hstep]
    exact ⟨_, rfl, blind_respond .illegalCommand 0#16 (s.withHost rest) past last⟩
  · refine ⟨_, ?_, blind_countdown s past last⟩
    cases hpos : s.seq.agent with
    | host => exact (step_of_host (s := s.shown past last) hreset hpos).trans (hostTurn_of_no_command hnone)
    | sequencer => exact absurd hpos hagent
    | nobody =>
      have hs := SeqPos.agent_eq_nobody_iff.1 hpos
      rcases onlyResetLeavesAborted s _ hs h with ⟨-, n, rest, hhost, -⟩ | ⟨rest, hdue, -⟩
      · exact step_of_aborted_waiting (s := s.shown past last) hs hhost
      · exact absurd hdue (State.resetNow_eq_false_iff.1 hreset rest)
  · rw [step_of_sequencer (s := s.shown past last) hreset hagent, State.shown_countdown]
    obtain ⟨t', hstep, events, last', htrace, heq, hresp⟩ := blindStep_microStep _ _ t past last hmicro
    rw [State.countdown_trace] at htrace
    rw [State.countdown_resp] at hresp
    exact ⟨t', hstep, events, last', htrace, heq, hresp⟩

/-- Settles O53: the two runs differ in the trace before the step, and in a response that the step does not give. -/
theorem traceAndResponseAreNeverRead : Obligations.TraceAndResponseAreNeverRead := by
  intro s t past last hreset h
  obtain ⟨t', hstep, events, last', htrace, rfl, hresp⟩ := step_blind past last hreset h
  exact ⟨events, _, htrace, hstep, rfl, rfl, hresp⟩

end Sys2Proof.Machine
end

section
/-! Bits in order: the bytes that ENCB appends to BUF (42_bit_encoder.md R142), and the digits of a rendered byte
(44_state_reporter.md R191). -/

namespace Sys2Proof.Machine

/-! ### BUF after several bytes -/

/-- With BUF_CAP unbounded every byte is appended (R140, R142). -/
theorem encodeBytes_none_buf (bytes : List Byte) (s : State) :
    (encodeBytes none bytes s).buf = s.buf ++ bytes.flatMap byteBits := by
  induction bytes generalizing s with
  | nil => exact (List.append_nil _).symm
  | cons b bs ih => rw [encodeBytes, ih, encodeByte_of_fits (by simp [overCap]), List.flatMap_cons, List.append_assoc]

theorem flatMap_byteBits_length (bytes : List Byte) : (bytes.flatMap byteBits).length = 8 * bytes.length := by
  induction bytes with
  | nil => rfl
  | cons b bs ih =>
    rw [List.flatMap_cons, List.length_append, byteBits_length, ih, List.length_cons]
    omega

/-- Bit k of a byte's eight is `b[7-k]` (R140). -/
theorem byteBits_getElem? (b : Byte) {k : Nat} (hk : k < 8) : (byteBits b)[k]? = some (BitVec.ofBool (b.getLsbD (7 - k))) := by
  rw [byteBits_eq_map_range, List.getElem?_map, List.getElem?_range hk]
  rfl

/-- Bit k of byte j stands at 8j + k (R142). -/
theorem flatMap_byteBits_getElem? {bytes : List Byte} {j k : Nat} {b : Byte} (hb : bytes[j]? = some b) (hk : k < 8) :
    (bytes.flatMap byteBits)[8 * j + k]? = some (BitVec.ofBool (b.getLsbD (7 - k))) := by
  induction bytes generalizing j with
  | nil => cases hb
  | cons b' bs ih =>
    rw [List.flatMap_cons]
    cases j with
    | zero =>
      cases hb
      rw [List.getElem?_append_left (by rw [byteBits_length]; omega), Nat.mul_zero, Nat.zero_add, byteBits_getElem? b hk]
    | succ j =>
      rw [List.getElem?_append_right (by rw [byteBits_length]; omega), byteBits_length, ← ih hb]
      congr 1
      omega

/-- Settles O40: BUF gains the bits of the bytes in order, and keeps its own in front of them. -/
theorem encodedBytesFillTheBuffer : Obligations.EncodedBytesFillTheBuffer := by
  intro s bytes
  rw [encodeBytes_none_buf]
  refine ⟨?_, fun i hi => List.getElem?_append_left hi, fun j k b hb hk => ?_⟩
  · rw [List.length_append, flatMap_byteBits_length]
  · rw [List.getElem?_append_right (by omega), ← flatMap_byteBits_getElem? hb hk]
    congr 1
    omega

/-! ### The digits of a byte -/

theorem bitString_eq_map_range (v : Byte) :
    bitString v = (List.range 8).map fun k => if v.getLsbD (7 - k) then '1' else '0' := rfl

theorem bitString_getElem? (v : Byte) {k : Nat} (hk : k < 8) :
    (bitString v)[k]? = some (if v.getLsbD (7 - k) then '1' else '0') := by
  rw [bitString_eq_map_range, List.getElem?_map, List.getElem?_range hk]
  rfl

/-- Settles O59: digit k by the order of the digits; the lines as the model writes them (log 12). -/
theorem renderedFormIsMostSignificantFirst : Obligations.RenderedFormIsMostSignificantFirst := fun d r =>
  ⟨rfl, rfl, fun _ hk => ⟨bitString_getElem? d hk, bitString_getElem? r hk⟩, rfl⟩

end Sys2Proof.Machine
end

section
/-! The assembler form (30_encoding.md R79, R80): which commands a mnemonic with its operands stands for, and from that what each
written line assembles to. -/

namespace Sys2Proof.Machine

/-! ### The operands of a command -/

/-- The operands of a command as numbers, each with the base it is written in, in the order PIN then VAL (R79). -/
def operandPairs (pinHex valHex : Bool) : Instr → List (Bool × Nat)
  | .rdbitData pin | .rdbitDir pin | .rdpin pin | .tglpin pin => [(pinHex, pin)]
  | .wrbitData pin val | .wrbitDir pin val | .cfgdir pin val | .wrpin pin val => [(pinHex, pin), (valHex, val)]
  | .encb b => [(valHex, b.toNat)]
  | .send | .render => []

theorem operandTexts_eq_map (pinHex valHex : Bool) (i : Instr) :
    operandTexts pinHex valHex i = (operandPairs pinHex valHex i).map fun o => numeralText o.1 o.2 := by
  cases i <;> rfl

/-! ### What a mnemonic stands for -/

/-- A mnemonic with the operands of a command is that command, when an encoding can carry it (R79). -/
theorem lineCommands?_of_command (pinHex valHex : Bool) (i : Instr) :
    lineCommands? i.mnemonic ((operandPairs pinHex valHex i).map Prod.snd) = if i.wellFormed then some [i] else none := by
  cases i with
  | encb b => simp [lineCommands?, Instr.mnemonic, operandPairs, Option.filter, Instr.wellFormed, b.isLt]
  | _ => simp [lineCommands?, Instr.mnemonic, operandPairs, Option.filter]

theorem lineCommands?_encb_of_ge {n : Nat} (hn : 255 < n) : lineCommands? "ENCB" [n] = none := by
  have hval : ¬ n < 256 := by omega
  simp [lineCommands?, hval]

theorem lineCommands?_output (p : Nat) : lineCommands? "OUTPUT" [p] = if p < 16 then some [.cfgdir p 1] else none := by
  simp [lineCommands?, Option.filter, expand, Instr.wellFormed]

theorem lineCommands?_input (p : Nat) : lineCommands? "INPUT" [p] = if p < 16 then some [.cfgdir p 0] else none := by
  simp [lineCommands?, Option.filter, expand, Instr.wellFormed]

theorem lineCommands?_sendbytes {ns : List Nat} (hne : ns ≠ []) : lineCommands? "SENDBYTES" ns =
    if ∀ n ∈ ns, n < 256 then some (ns.map (fun n => Instr.encb (BitVec.ofNat 8 n)) ++ [.send]) else none := by
  have hall : (ns ≠ [] ∧ ns.all valEncodable = true) ↔ ∀ n ∈ ns, n < 256 := by simp [hne]
  have hfilter : (some (expand (.sendbytes (ns.map (BitVec.ofNat 8))))).filter (·.all Instr.wellFormed) =
      some (ns.map (fun n => Instr.encb (BitVec.ofNat 8 n)) ++ [.send]) := by
    simp [Option.filter, expand, Instr.wellFormed]
  unfold lineCommands?
  simp only [true_and, hall]
  by_cases hlt : ∀ n ∈ ns, n < 256
  · rw [if_pos hlt, if_pos hlt, ← hfilter]
    split <;> simp
  · rw [if_neg hlt, if_neg hlt]
    split <;> simp

/-- Whatever a mnemonic and its operands stand for, an encoding can carry it (R79). -/
theorem wellFormed_of_mem_lineCommands? {mnemonic : String} {ops : List Nat} {cmds : List Instr}
    (h : lineCommands? mnemonic ops = some cmds) : ∀ i ∈ cmds, i.wellFormed = true := by
  unfold lineCommands? at h
  exact List.all_eq_true.1 (Option.filter_eq_some_iff.1 h).2

/-! ### What a written line assembles to -/

theorem assembleLine?_commandText (pinHex valHex : Bool) (i : Instr) :
    assembleLine? (commandText pinHex valHex i) = if i.wellFormed then some [i] else none := by
  rw [commandText, operandTexts_eq_map, assembleLine?_lineText _ (isToken_mnemonic i), lineCommands?_of_command]

theorem isToken_output : IsToken "OUTPUT".toList := by simp [IsToken]
theorem isToken_input : IsToken "INPUT".toList := by simp [IsToken]
theorem isToken_sendbytes : IsToken "SENDBYTES".toList := by simp [IsToken]

/-- A line of one mnemonic with numbers all written in one base. -/
theorem assembleLine?_numerals {mnemonic : String} (hm : IsToken mnemonic.toList) (hex : Bool) (ns : List Nat) :
    assembleLine? (lineText mnemonic (ns.map (numeralText hex))) = lineCommands? mnemonic ns := by
  have h := assembleLine?_lineText mnemonic hm (ns.map fun n => (hex, n))
  simpa [List.map_map, Function.comp_def] using h

/-- A program of encodable commands assembles to its words in order (R79). -/
theorem assemble?_program (pinHex valHex : Bool) (program : List Instr) (h : ∀ i ∈ program, i.wellFormed = true) :
    assemble? (program.map (commandText pinHex valHex)) = some (program.map encode) := by
  have hlines : (program.map (commandText pinHex valHex)).mapM assembleLine? = some (program.map fun i => [i]) := by
    induction program with
    | nil => rfl
    | cons i is ih =>
      rw [List.map_cons, List.mapM_cons, assembleLine?_commandText, if_pos (h i List.mem_cons_self),
        ih fun j hj => h j (List.mem_cons_of_mem i hj)]
      rfl
  have hflat : (program.map fun i => [i]).flatten = program := by
    rw [← List.flatMap_def, List.flatMap_singleton']
  rw [assemble?, hlines, Option.map_some, hflat]

theorem wellFormed_of_mem_assembleLine? {line : List Char} {cmds : List Instr} (h : assembleLine? line = some cmds) :
    ∀ i ∈ cmds, i.wellFormed = true := by
  unfold assembleLine? at h
  dsimp only at h
  split at h
  · cases h
  · exact wellFormed_of_mem_lineCommands? h

/-- Settles O60: each kind of line is read back as its mnemonic with its numbers, which stands for the commands it was made of. -/
theorem assembledLinesAreEncodable : Obligations.AssembledLinesAreEncodable := by
  refine ⟨assembleLine?_commandText, fun hex n hn => ?_, fun hex p => ⟨?_, ?_⟩, fun hex ns hne => ?_, assemble?_program,
    fun line cmds h i hi => ?_⟩
  · exact (assembleLine?_numerals (isToken_mnemonic (.encb 0)) hex [n]).trans (lineCommands?_encb_of_ge hn)
  · exact (assembleLine?_numerals isToken_output hex [p]).trans (lineCommands?_output p)
  · exact (assembleLine?_numerals isToken_input hex [p]).trans (lineCommands?_input p)
  · exact (assembleLine?_numerals isToken_sendbytes hex ns).trans (lineCommands?_sendbytes hne)
  · have hwf := wellFormed_of_mem_assembleLine? h i hi
    exact ⟨hwf, decodeOfEncodeIsTheCommand i hwf⟩

end Sys2Proof.Machine
end
